-- ==== Sys2Proof/Word.lean ====
section
/-! DEFINITION. The word types of the core (spec/00_scope.md R1): bytes, 16-bit words, register numbers. -/

namespace Sys2Proof

/-- A byte: the content of a general register, a timer or a memory cell (R11, R17, R20). -/
abbrev Byte := BitVec 8

/-- A 16-bit word: an instruction, the index register, the program counter, a stack entry (R13, R14, R16, R60). -/
abbrev Word := BitVec 16

/-- A register number `X` or `Y`, 0 to 15 (R62). -/
abbrev Reg := Fin 16

/-- `VF`, the register that doubles as the flag (R12). -/
abbrev VF : Reg := 15

end Sys2Proof
end

