-- ==== Sys2Proof/Syntax.lean ====
section
/-! DEFINITION. The instructions: one constructor per row of the opcode map (spec/30_encoding.md R66), in its order.
Register numbers and immediates have the widths of R62; the sprite height `N` is a count (R63). -/

namespace Sys2Proof

inductive Instr where
  /-- `0-E0` clear display (R131). -/
  | cls
  /-- `0-EE` return from subroutine (R80). -/
  | ret
  /-- `1NNN` jump (R81). -/
  | jp (nnn : BitVec 12)
  /-- `2NNN` call (R82). -/
  | call (nnn : BitVec 12)
  /-- `3XNN` skip if equal to immediate (R90). -/
  | seImm (x : Reg) (nn : Byte)
  /-- `4XNN` skip if not equal to immediate (R91). -/
  | sneImm (x : Reg) (nn : Byte)
  /-- `5XY-` skip if registers equal (R92). -/
  | seReg (x y : Reg)
  /-- `9XY-` skip if registers differ (R93). -/
  | sneReg (x y : Reg)
  /-- `6XNN` load immediate (R100). -/
  | ldImm (x : Reg) (nn : Byte)
  /-- `7XNN` add immediate, no flag (R101). -/
  | addImm (x : Reg) (nn : Byte)
  /-- `8XY0` copy register (R102). -/
  | ldReg (x y : Reg)
  /-- `8XY1` bitwise or (R103). -/
  | orReg (x y : Reg)
  /-- `8XY2` bitwise and (R104). -/
  | andReg (x y : Reg)
  /-- `8XY3` bitwise exclusive or (R105). -/
  | xorReg (x y : Reg)
  /-- `8XY4` add, carry flag out (R106). -/
  | addReg (x y : Reg)
  /-- `8XY5` subtract, not-borrow flag out (R107). -/
  | sub (x y : Reg)
  /-- `8XY7` reverse subtract, not-borrow flag out (R109). -/
  | subn (x y : Reg)
  /-- `8XY6` shift right by one (R108). -/
  | shr (x y : Reg)
  /-- `8XYE` shift left by one (R110). -/
  | shl (x y : Reg)
  /-- `ANNN` load index (R120). -/
  | ldI (nnn : BitVec 12)
  /-- `BNNN` jump with offset (R83). -/
  | jpV0 (nnn : BitVec 12)
  /-- `CXNN` masked random (R121). -/
  | rnd (x : Reg) (nn : Byte)
  /-- `DXYN` draw sprite of `n` rows (R132). -/
  | drw (x y : Reg) (n : Nat)
  /-- `EX9E` skip if key pressed (R140). -/
  | skp (x : Reg)
  /-- `EXA1` skip if key not pressed (R141). -/
  | sknp (x : Reg)
  /-- `FX07` read delay timer (R150). -/
  | ldVxDt (x : Reg)
  /-- `FX15` set delay timer (R151). -/
  | ldDtVx (x : Reg)
  /-- `FX18` set sound timer (R152). -/
  | ldStVx (x : Reg)
  /-- `FX1E` add register to index (R122). -/
  | addI (x : Reg)
  /-- `FX0A` wait for a key (R142). -/
  | ldVxK (x : Reg)
  /-- `FX29` point index at font glyph (R123). -/
  | ldF (x : Reg)
  /-- `FX33` store binary-coded decimal (R160). -/
  | ldB (x : Reg)
  /-- `FX55` store registers `V0` to `VX` (R161). -/
  | stRegs (x : Reg)
  /-- `FX65` load registers `V0` to `VX` (R162). -/
  | ldRegs (x : Reg)
  deriving DecidableEq, Repr

end Sys2Proof
end

