-- ==== Sys2Proof/Decode.lean ====
section
/-! DEFINITION. The decoder, the encoder and the opcode map (spec/30_encoding.md).
`decode` is the two-level procedure of R64; `encode` writes the canonical word of R69; `opcodeMap` is the table of R66,
kept beside them so that the three can be compared. -/

namespace Sys2Proof

/-- Why bytes are no instruction: the word matches no row (R67), or there are fewer than two bytes (R60). -/
inductive DecodeError where
  | unknownInstruction (w : Word)
  | tooShort
  deriving DecidableEq, Repr

/-- `op = w[15:12]` (R62). -/
def opField (w : Word) : BitVec 4 := w.extractLsb' 12 4
/-- `X = w[11:8]` (R62). -/
def xField (w : Word) : Reg := (w.extractLsb' 8 4).toFin
/-- `Y = w[7:4]` (R62). -/
def yField (w : Word) : Reg := (w.extractLsb' 4 4).toFin
/-- `N = w[3:0]`, as a bit field (R62). -/
def nField (w : Word) : BitVec 4 := w.extractLsb' 0 4
/-- `NN = w[7:0]` (R62). -/
def nnField (w : Word) : Byte := w.extractLsb' 0 8
/-- `NNN = w[11:0]` (R62). -/
def nnnField (w : Word) : BitVec 12 := w.extractLsb' 0 12

/-- Family 0 sub-selects by the low byte; `w[11:8]` is ignored (R64, R65 a). -/
def decodeFamily0 (w : Word) : Except DecodeError Instr :=
  match (nnField w).toNat with
  | 0xE0 => .ok .cls
  | 0xEE => .ok .ret
  | _    => .error (.unknownInstruction w)

/-- Family 8 sub-selects by the low nibble (R64). -/
def decodeFamily8 (w : Word) : Except DecodeError Instr :=
  match (nField w).toNat with
  | 0x0 => .ok (.ldReg (xField w) (yField w))
  | 0x1 => .ok (.orReg (xField w) (yField w))
  | 0x2 => .ok (.andReg (xField w) (yField w))
  | 0x3 => .ok (.xorReg (xField w) (yField w))
  | 0x4 => .ok (.addReg (xField w) (yField w))
  | 0x5 => .ok (.sub (xField w) (yField w))
  | 0x6 => .ok (.shr (xField w) (yField w))
  | 0x7 => .ok (.subn (xField w) (yField w))
  | 0xE => .ok (.shl (xField w) (yField w))
  | _   => .error (.unknownInstruction w)

/-- Family E sub-selects by the low byte (R64). -/
def decodeFamilyE (w : Word) : Except DecodeError Instr :=
  match (nnField w).toNat with
  | 0x9E => .ok (.skp (xField w))
  | 0xA1 => .ok (.sknp (xField w))
  | _    => .error (.unknownInstruction w)

/-- Family F sub-selects by the low byte (R64). -/
def decodeFamilyF (w : Word) : Except DecodeError Instr :=
  match (nnField w).toNat with
  | 0x07 => .ok (.ldVxDt (xField w))
  | 0x0A => .ok (.ldVxK (xField w))
  | 0x15 => .ok (.ldDtVx (xField w))
  | 0x18 => .ok (.ldStVx (xField w))
  | 0x1E => .ok (.addI (xField w))
  | 0x29 => .ok (.ldF (xField w))
  | 0x33 => .ok (.ldB (xField w))
  | 0x55 => .ok (.stRegs (xField w))
  | 0x65 => .ok (.ldRegs (xField w))
  | _    => .error (.unknownInstruction w)

/-- The decode procedure of R64, level 1 by the leading nibble. Families 5 and 9 ignore `w[3:0]` (R65 b). -/
def decode (w : Word) : Except DecodeError Instr :=
  match (opField w).toNat with
  | 0x0 => decodeFamily0 w
  | 0x1 => .ok (.jp (nnnField w))
  | 0x2 => .ok (.call (nnnField w))
  | 0x3 => .ok (.seImm (xField w) (nnField w))
  | 0x4 => .ok (.sneImm (xField w) (nnField w))
  | 0x5 => .ok (.seReg (xField w) (yField w))
  | 0x6 => .ok (.ldImm (xField w) (nnField w))
  | 0x7 => .ok (.addImm (xField w) (nnField w))
  | 0x8 => decodeFamily8 w
  | 0x9 => .ok (.sneReg (xField w) (yField w))
  | 0xA => .ok (.ldI (nnnField w))
  | 0xB => .ok (.jpV0 (nnnField w))
  | 0xC => .ok (.rnd (xField w) (nnField w))
  | 0xD => .ok (.drw (xField w) (yField w) (nField w).toNat)
  | 0xE => decodeFamilyE w
  | 0xF => decodeFamilyF w
  | _   => .error (.unknownInstruction w)

/-- The word of two bytes in memory order: the first byte is the high-order byte (R43, R60). -/
def wordOfBytes (hi lo : Byte) : Word := hi ++ lo

/-- Decoding from a stream of bytes: total, and what it refuses it refuses by name. -/
def decodeBytes : List Byte → Except DecodeError (Instr × List Byte)
  | hi :: lo :: rest =>
    match decode (wordOfBytes hi lo) with
    | .ok i    => .ok (i, rest)
    | .error e => .error e
  | _ => .error .tooShort

/-! ### The encoder -/

/-- Formats `A`: a leading nibble and an address (R61). -/
def encodeA (op : BitVec 4) (nnn : BitVec 12) : Word := op ++ nnn
/-- Formats `XI` and `XF`: a leading nibble, a register, a byte (R61). -/
def encodeXB (op : BitVec 4) (x : Reg) (b : Byte) : Word := (op ++ BitVec.ofNat 4 x.val) ++ b
/-- Formats `XY`, `XYF` and `XYN`: a leading nibble, two registers, a nibble (R61). -/
def encodeXYN (op : BitVec 4) (x y : Reg) (n : BitVec 4) : Word :=
  ((op ++ BitVec.ofNat 4 x.val) ++ BitVec.ofNat 4 y.val) ++ n

/-- The canonical word of an instruction: its row's `match` with the fields inserted and ignored bits 0 (R66, R69). -/
def encode : Instr → Word
  | .cls          => encodeXB 0x0#4 0 0xE0#8
  | .ret          => encodeXB 0x0#4 0 0xEE#8
  | .jp nnn       => encodeA 0x1#4 nnn
  | .call nnn     => encodeA 0x2#4 nnn
  | .seImm x nn   => encodeXB 0x3#4 x nn
  | .sneImm x nn  => encodeXB 0x4#4 x nn
  | .seReg x y    => encodeXYN 0x5#4 x y 0x0#4
  | .sneReg x y   => encodeXYN 0x9#4 x y 0x0#4
  | .ldImm x nn   => encodeXB 0x6#4 x nn
  | .addImm x nn  => encodeXB 0x7#4 x nn
  | .ldReg x y    => encodeXYN 0x8#4 x y 0x0#4
  | .orReg x y    => encodeXYN 0x8#4 x y 0x1#4
  | .andReg x y   => encodeXYN 0x8#4 x y 0x2#4
  | .xorReg x y   => encodeXYN 0x8#4 x y 0x3#4
  | .addReg x y   => encodeXYN 0x8#4 x y 0x4#4
  | .sub x y      => encodeXYN 0x8#4 x y 0x5#4
  | .subn x y     => encodeXYN 0x8#4 x y 0x7#4
  | .shr x y      => encodeXYN 0x8#4 x y 0x6#4
  | .shl x y      => encodeXYN 0x8#4 x y 0xE#4
  | .ldI nnn      => encodeA 0xA#4 nnn
  | .jpV0 nnn     => encodeA 0xB#4 nnn
  | .rnd x nn     => encodeXB 0xC#4 x nn
  | .drw x y n    => encodeXYN 0xD#4 x y (BitVec.ofNat 4 n)
  | .skp x        => encodeXB 0xE#4 x 0x9E#8
  | .sknp x       => encodeXB 0xE#4 x 0xA1#8
  | .ldVxDt x     => encodeXB 0xF#4 x 0x07#8
  | .ldDtVx x     => encodeXB 0xF#4 x 0x15#8
  | .ldStVx x     => encodeXB 0xF#4 x 0x18#8
  | .addI x       => encodeXB 0xF#4 x 0x1E#8
  | .ldVxK x      => encodeXB 0xF#4 x 0x0A#8
  | .ldF x        => encodeXB 0xF#4 x 0x29#8
  | .ldB x        => encodeXB 0xF#4 x 0x33#8
  | .stRegs x     => encodeXB 0xF#4 x 0x55#8
  | .ldRegs x     => encodeXB 0xF#4 x 0x65#8

/-- The bytes of an instruction in memory order, high-order byte first (R60). -/
def encodeBytes (i : Instr) : List Byte :=
  [(encode i).extractLsb' 8 8, (encode i).extractLsb' 0 8]

/-! ### The opcode map -/

/-- One row of R66: a word `w` is the row's instruction exactly when `(w AND mask) = pattern` (the spec's `match`). -/
structure OpcodeRow where
  mask    : Word
  pattern : Word
  build   : Word → Instr

/-- Rows 1 to 10 of R66. -/
def opcodeMapA : List OpcodeRow :=
  [⟨0xF0FF#16, 0x00E0#16, fun _ => .cls⟩,
   ⟨0xF0FF#16, 0x00EE#16, fun _ => .ret⟩,
   ⟨0xF000#16, 0x1000#16, fun w => .jp (nnnField w)⟩,
   ⟨0xF000#16, 0x2000#16, fun w => .call (nnnField w)⟩,
   ⟨0xF000#16, 0x3000#16, fun w => .seImm (xField w) (nnField w)⟩,
   ⟨0xF000#16, 0x4000#16, fun w => .sneImm (xField w) (nnField w)⟩,
   ⟨0xF000#16, 0x5000#16, fun w => .seReg (xField w) (yField w)⟩,
   ⟨0xF000#16, 0x9000#16, fun w => .sneReg (xField w) (yField w)⟩,
   ⟨0xF000#16, 0x6000#16, fun w => .ldImm (xField w) (nnField w)⟩,
   ⟨0xF000#16, 0x7000#16, fun w => .addImm (xField w) (nnField w)⟩]

/-- Rows 11 to 23 of R66. -/
def opcodeMapB : List OpcodeRow :=
  [⟨0xF00F#16, 0x8000#16, fun w => .ldReg (xField w) (yField w)⟩,
   ⟨0xF00F#16, 0x8001#16, fun w => .orReg (xField w) (yField w)⟩,
   ⟨0xF00F#16, 0x8002#16, fun w => .andReg (xField w) (yField w)⟩,
   ⟨0xF00F#16, 0x8003#16, fun w => .xorReg (xField w) (yField w)⟩,
   ⟨0xF00F#16, 0x8004#16, fun w => .addReg (xField w) (yField w)⟩,
   ⟨0xF00F#16, 0x8005#16, fun w => .sub (xField w) (yField w)⟩,
   ⟨0xF00F#16, 0x8007#16, fun w => .subn (xField w) (yField w)⟩,
   ⟨0xF00F#16, 0x8006#16, fun w => .shr (xField w) (yField w)⟩,
   ⟨0xF00F#16, 0x800E#16, fun w => .shl (xField w) (yField w)⟩,
   ⟨0xF000#16, 0xA000#16, fun w => .ldI (nnnField w)⟩,
   ⟨0xF000#16, 0xB000#16, fun w => .jpV0 (nnnField w)⟩,
   ⟨0xF000#16, 0xC000#16, fun w => .rnd (xField w) (nnField w)⟩,
   ⟨0xF000#16, 0xD000#16, fun w => .drw (xField w) (yField w) (nField w).toNat⟩]

/-- Rows 24 to 34 of R66. -/
def opcodeMapC : List OpcodeRow :=
  [⟨0xF0FF#16, 0xE09E#16, fun w => .skp (xField w)⟩,
   ⟨0xF0FF#16, 0xE0A1#16, fun w => .sknp (xField w)⟩,
   ⟨0xF0FF#16, 0xF007#16, fun w => .ldVxDt (xField w)⟩,
   ⟨0xF0FF#16, 0xF015#16, fun w => .ldDtVx (xField w)⟩,
   ⟨0xF0FF#16, 0xF018#16, fun w => .ldStVx (xField w)⟩,
   ⟨0xF0FF#16, 0xF01E#16, fun w => .addI (xField w)⟩,
   ⟨0xF0FF#16, 0xF00A#16, fun w => .ldVxK (xField w)⟩,
   ⟨0xF0FF#16, 0xF029#16, fun w => .ldF (xField w)⟩,
   ⟨0xF0FF#16, 0xF033#16, fun w => .ldB (xField w)⟩,
   ⟨0xF0FF#16, 0xF055#16, fun w => .stRegs (xField w)⟩,
   ⟨0xF0FF#16, 0xF065#16, fun w => .ldRegs (xField w)⟩]

/-- The 34 rows of R66, in its order. -/
def opcodeMap : List OpcodeRow := opcodeMapA ++ opcodeMapB ++ opcodeMapC

/-! ### The host's question about one table word -/

/-- The two bytes of a table word as they lie in memory: `w`'s bits from `nbits` up are 0, the high byte comes first. -/
def tableBytes (nbits w : Nat) : List Byte :=
  [BitVec.ofNat 8 (w % 2 ^ nbits / 256), BitVec.ofNat 8 (w % 2 ^ nbits)]

/-- The instruction the decoder reads from a word given as the opcode table numbers its bits. -/
def decodeTableWord (nbits w : Nat) : Option Instr :=
  match decodeBytes (tableBytes nbits w) with
  | .ok (i, _) => some i
  | .error _   => none

end Sys2Proof
end

