-- ==== Sys2Proof/Config.lean ====
section
/-! DEFINITION. The parameters of the machine (spec/00_scope.md R2) and the free inputs (10_state.md R26, R27).
A configuration is plain data, so that it can stand in `State` and every statement holds for every configuration. -/

namespace Sys2Proof

/-- What one step receives from the host: the key snapshot `KEYS` (bit k is key k, 1 = pressed, R26) and the random
byte `RAND` (R27). -/
structure Input where
  keys : BitVec 16
  rand : Byte
  deriving DecidableEq, Repr

/-- The named parameters of R2. `keySelect` is the parameter `KEY_SELECT` as a table: the key it names for a key
vector if that key is pressed, and for every other vector the lowest-numbered pressed key (log 4). -/
structure Config where
  fontBase    : Nat
  progBase    : Nat
  fontData    : Vector Byte 80
  stackDepth  : Nat
  shiftUsesVy : Bool
  keySelect   : List (BitVec 16 × Fin 16)
  deriving DecidableEq, Repr

/-- The default `FONT_DATA`: the table of R47, glyph `d` in row `d`. PRESUMED (the spec's general knowledge, log 2). -/
def Config.defaultFont : Vector Byte 80 := #v[
  0xF0#8, 0x90#8, 0x90#8, 0x90#8, 0xF0#8,
  0x20#8, 0x60#8, 0x20#8, 0x20#8, 0x70#8,
  0xF0#8, 0x10#8, 0xF0#8, 0x80#8, 0xF0#8,
  0xF0#8, 0x10#8, 0xF0#8, 0x10#8, 0xF0#8,
  0x90#8, 0x90#8, 0xF0#8, 0x10#8, 0x10#8,
  0xF0#8, 0x80#8, 0xF0#8, 0x10#8, 0xF0#8,
  0xF0#8, 0x80#8, 0xF0#8, 0x90#8, 0xF0#8,
  0xF0#8, 0x10#8, 0x20#8, 0x40#8, 0x40#8,
  0xF0#8, 0x90#8, 0xF0#8, 0x90#8, 0xF0#8,
  0xF0#8, 0x90#8, 0xF0#8, 0x10#8, 0xF0#8,
  0xF0#8, 0x90#8, 0xF0#8, 0x90#8, 0x90#8,
  0xE0#8, 0x90#8, 0xE0#8, 0x90#8, 0xE0#8,
  0xF0#8, 0x80#8, 0x80#8, 0x80#8, 0xF0#8,
  0xE0#8, 0x90#8, 0x90#8, 0x90#8, 0xE0#8,
  0xF0#8, 0x80#8, 0xF0#8, 0x80#8, 0xF0#8,
  0xF0#8, 0x80#8, 0xF0#8, 0x80#8, 0x80#8]

/-- The defaults of R2 (log 1, 2, 4, 6). -/
def Config.default : Config where
  fontBase    := 0x050
  progBase    := 0x200
  fontData    := Config.defaultFont
  stackDepth  := 16
  shiftUsesVy := true
  keySelect   := []

/-- `MEM_SIZE` of R1: addresses 0 to 4095. -/
abbrev Config.memSize : Nat := 4096

/-- `MAX_ROM` of R3: the largest program image a reset accepts. -/
def Config.maxRom (c : Config) : Nat := Config.memSize - c.progBase

/-- `KEYS` of a step for which nobody has written an input down: a free value (R26, log 5). -/
opaque Config.freeKeys : Nat → BitVec 16

/-- `RAND` of a step for which nobody has written an input down: a free value (R27, log 5). -/
opaque Config.freeRand : Nat → Byte

end Sys2Proof
end

