-- ==== Sys2Proof/Machine/State.lean ====
section
/-! DEFINITION. The state of the core (spec/10_state.md), the latch values (60_exceptions.md R171), the outcomes'
reason types and the state after reset (70_reset_and_hazards.md). Plain data throughout. -/

namespace Sys2Proof.Machine

/-- `FAULT.code` (R19, R171). -/
inductive FaultCode where
  | none | outOfRange | stackUnderflow | stackOverflow | unknownInstruction | romTooLarge
  deriving DecidableEq, Repr

/-- `FAULT.space` (R19): `mem` is the value 0, also held when the code needs no space (R171). -/
inductive FaultSpace where
  | mem | display | key
  deriving DecidableEq, Repr

/-- The latch `FAULT` (R19). -/
structure FaultLatch where
  code  : FaultCode
  space : FaultSpace
  info  : Word
  deriving DecidableEq, Repr

/-- The latch after a successful reset (R206). -/
def FaultLatch.clear : FaultLatch := ⟨.none, .mem, 0⟩

/-- Memory as a list of (address, byte), addresses strictly rising, no entry equal to what an unlisted address reads
as (`Config.resetByte`, the reset contents of R201 without a program image). -/
abbrev Memory := List Host.Cell

/-- The display `DISP` (R21): 32 rows, top first, of 64 pixels, left first. -/
abbrev Display := Vector (Vector Bool 64) 32

/-- Everything the spec gives the machine (R11 to R22), the configuration it was built with (R2), and the model's own
two fields for the inputs of the coming steps (log 5). -/
structure State where
  /-- the parameters, fixed for the machine (R2, log 3) -/
  cfg    : Config
  /-- `V[0..15]` (R11, R12) -/
  v      : Vector Byte 16
  /-- `I` (R13) -/
  index  : Word
  /-- `pc` (R14, R15) -/
  pc     : Word
  /-- `STACK[0..STACK_DEPTH-1]` (R16) -/
  stack  : List Word
  /-- `SP`, the number of valid entries (R16) -/
  sp     : Nat
  /-- `DT` (R17) -/
  dt     : Byte
  /-- `ST` (R18) -/
  st     : Byte
  /-- `FAULT` (R19) -/
  fault  : FaultLatch
  /-- `MEM` (R20) -/
  mem    : Memory
  /-- `DISP` (R21) -/
  disp   : Display
  /-- the model's own: inputs of the coming steps that have been written down, the next first (R26, R27, log 5) -/
  inputs : List Input
  /-- the model's own: index of the free value that a step without a written input takes (log 5) -/
  freeIx : Nat
  deriving DecidableEq, Repr

/-- Reasons for a step to stop outside the machine's own rules. It has no constructor: the spec gives every faulting
step an effect (R172 sets the latch, R175 halts), so a raise is a next state and no step ends here (log 12). -/
inductive Fault
  deriving DecidableEq, Repr

/-- Reasons for refusing an instruction. -/
inductive Refusal where
  /-- Raised by an arm of `exec` whose instruction has no meaning yet; no arm does. Safe. -/
  | notModelled (mnemonic : String)
  deriving DecidableEq, Repr

/-- What a meaning answers. -/
abbrev Result := Host.Outcome State Fault Refusal

/-- The state after a successful reset with an empty program image, for a configuration (R200 to R206). -/
def State.resetFor (c : Config) : State where
  cfg    := c
  v      := Vector.replicate 16 0
  index  := 0
  pc     := BitVec.ofNat 16 c.progBase
  stack  := List.replicate c.stackDepth 0
  sp     := 0
  dt     := 0
  st     := 0
  fault  := FaultLatch.clear
  mem    := []
  disp   := Vector.replicate 32 (Vector.replicate 64 false)
  inputs := []
  freeIx := 0

/-- The machine right after reset, with the default parameters of R2. -/
def State.reset : State := State.resetFor Config.default

end Sys2Proof.Machine
end

