-- ==== Sys2Proof/WellFormed.lean ====
section
/-! DEFINITION. What makes an instruction and a configuration well formed. Register numbers and immediates are bounded
by their types; the sprite height is a count and is checked here, as are the constraints of R2 on a configuration. -/

namespace Sys2Proof

/-- The sprite height `N` of `DRW` is 0 to 15 (R62, R63); every other operand's type is its field's width. -/
def Instr.wellFormed : Instr → Bool
  | .drw _ _ n => n < 16
  | .cls | .ret | .jp _ | .call _ | .seImm _ _ | .sneImm _ _ | .seReg _ _ | .sneReg _ _ | .ldImm _ _ | .addImm _ _
  | .ldReg _ _ | .orReg _ _ | .andReg _ _ | .xorReg _ _ | .addReg _ _ | .sub _ _ | .subn _ _ | .shr _ _ | .shl _ _
  | .ldI _ | .jpV0 _ | .rnd _ _ | .skp _ | .sknp _ | .ldVxDt _ | .ldDtVx _ | .ldStVx _ | .addI _ | .ldVxK _ | .ldF _
  | .ldB _ | .stRegs _ | .ldRegs _ => true

/-- The constraint of R2: `FONT_BASE + 80 <= PROG_BASE <= MEM_SIZE` and `STACK_DEPTH >= 1`. -/
def Config.wellFormed (c : Config) : Bool :=
  c.fontBase + 80 ≤ c.progBase && c.progBase ≤ Config.memSize && 1 ≤ c.stackDepth

end Sys2Proof
end

