-- ==== Sys2Proof/Machine/Ops.lean ====
section
/-! DEFINITION. The named operations over registers, memory, stack, display, timers, latch and inputs, that the
meanings and the step share (spec/10_state.md, 20_memory.md, 60_exceptions.md). -/

namespace Sys2Proof

/-- What address `a` holds after a reset with an empty image: the font at `FONT_BASE`, 0 elsewhere (R201). It is what
an unlisted address of `Memory` reads as. -/
def Config.resetByte (c : Config) (a : Nat) : Byte :=
  if h : c.fontBase ≤ a ∧ a < c.fontBase + 80 then c.fontData[a - c.fontBase]'(by omega) else 0

end Sys2Proof

namespace Sys2Proof.Machine

/-! ### Memory -/

/-- The listed byte at an address, if there is one. -/
def Memory.lookup : Memory → Nat → Option Byte
  | [], _ => none
  | (b, v) :: m, a => if b = a then some v else Memory.lookup m a

/-- Lists `v` at `a`, keeping the addresses rising. -/
def Memory.insert : Memory → Nat → Byte → Memory
  | [], a, v => [(a, v)]
  | (b, u) :: m, a, v =>
    if a < b then (a, v) :: (b, u) :: m else if a = b then (a, v) :: m else (b, u) :: Memory.insert m a v

/-- Takes the entry at `a` out. -/
def Memory.erase : Memory → Nat → Memory
  | [], _ => []
  | (b, u) :: m, a => if b = a then m else (b, u) :: Memory.erase m a

/-- The byte an address of `MEM` holds. -/
def Memory.read (c : Config) (m : Memory) (a : Nat) : Byte := (Memory.lookup m a).getD (c.resetByte a)

/-- `MEM[a] <- v`. A byte equal to what an unlisted address reads as is not listed. -/
def Memory.write (c : Config) (m : Memory) (a : Nat) (v : Byte) : Memory :=
  if v = c.resetByte a then Memory.erase m a else Memory.insert m a v

/-- The canonical form: addresses strictly rising and below `MEM_SIZE`, no entry equal to the unlisted byte. -/
abbrev Memory.wf (c : Config) (m : Memory) : Prop :=
  m.Pairwise (fun p q => p.1 < q.1) ∧ ∀ p ∈ m, p.1 < Config.memSize ∧ p.2 ≠ c.resetByte p.1

/-- Copies a list of bytes to ascending addresses. -/
def Memory.writeBlock (c : Config) : Memory → Nat → List Byte → Memory
  | m, _, [] => m
  | m, a, b :: bs => Memory.writeBlock c (Memory.write c m a b) (a + 1) bs

/-- The byte `MEM[a]`, for an address already known to be in range. -/
def State.byteAt (s : State) (a : Nat) : Byte := Memory.read s.cfg s.mem a

/-- `MemRead(a, 1)` of R42: nothing above 4095. -/
def State.memRead (s : State) (a : Nat) : Option Byte := if a < Config.memSize then some (s.byteAt a) else none

/-- Writes bytes to ascending addresses from `a` (R45), the range already known to be in bounds. -/
def State.storeBlock (s : State) (a : Nat) (bs : List Byte) : State :=
  { s with mem := Memory.writeBlock s.cfg s.mem a bs }

/-- The first address above 4095 among the `n` addresses from `base` (R171: `max(I, 4096)`), if one is. -/
def firstOutOfRange (base n : Nat) : Option Nat :=
  if n = 0 ∨ base + n ≤ Config.memSize then none else some (max base Config.memSize)

/-! ### Registers -/

/-- `V[r]` (R11). -/
def State.reg (s : State) (r : Reg) : Byte := s.v[r.val]

/-- `V[r] <- b` (R11). -/
def State.setReg (s : State) (r : Reg) (b : Byte) : State := { s with v := s.v.set r.val b }

/-- `I <- w` (R13). -/
def State.setIndex (s : State) (w : Word) : State := { s with index := w }

/-- `pc <- w` (R14). -/
def State.setPc (s : State) (w : Word) : State := { s with pc := w }

/-- The fetch's advance of `pc` by 2 (R30 item 1); a taken skip is one more (00_scope.md, `skip`). -/
def State.advancePc (s : State) : State := s.setPc (s.pc + 2)

/-- A taken skip advances `pc` by 2 more. -/
def State.skipIf (s : State) (taken : Bool) : State := if taken then s.advancePc else s

/-- `DT <- b` (R17). -/
def State.setDt (s : State) (b : Byte) : State := { s with dt := b }

/-- `ST <- b` (R18). -/
def State.setSt (s : State) (b : Byte) : State := { s with st := b }

/-! ### Faults: the one exceptional event of the machine -/

/-- `raise F(info)` (R172): the latch is set and nothing else changes. What is abandoned (the rest of the step, the
timer tick) is `step`'s part; there is no way back but reset (R179). -/
def raise (code : FaultCode) (space : FaultSpace) (info : Nat) (s : State) : State :=
  { s with fault := ⟨code, space, BitVec.ofNat 16 info⟩ }

/-- The halted state (R175). -/
def State.halted (s : State) : Bool := s.fault.code != .none

/-- Runs an effect whose `n` memory addresses from `base` are tested first (R45, R172). -/
def onBlock (base n : Nat) (effect : State → State) (s : State) : Result :=
  .next (match firstOutOfRange base n with
    | none   => effect s
    | some a => raise .outOfRange .mem a s)

/-! ### The call stack (R16) -/

/-- `STACK[k]`. -/
def State.stackAt (s : State) (k : Nat) : Word := s.stack.getD k 0

/-- `STACK[SP] <- w; SP <- SP + 1`, the stack known not to be full. -/
def State.push (s : State) (w : Word) : State := { s with stack := s.stack.set s.sp w, sp := s.sp + 1 }

/-- `SP <- SP - 1; pc <- STACK[SP]`, the stack known not to be empty. -/
def State.popToPc (s : State) : State := { s with sp := s.sp - 1, pc := s.stackAt (s.sp - 1) }

/-! ### The display unit (R130) -/

/-- `Pixel(x, y)`. -/
def pixel (d : Display) (x : Fin 64) (y : Fin 32) : Bool := (d[y.val])[x.val]

/-- `Toggle(x, y)`: the previous value, and the display with the pixel flipped. The bounds are in the types, so the
source's `OutOfRange` of this operation cannot arise (R130 c, log 22). -/
def toggle (d : Display) (x : Fin 64) (y : Fin 32) : Bool × Display :=
  (pixel d x y, d.set y.val ((d[y.val]).set x.val (!pixel d x y)))

/-- `clear()` (R130 a). -/
def clearedDisplay : Display := Vector.replicate 32 (Vector.replicate 64 false)

/-- `DISP <- d`. -/
def State.setDisp (s : State) (d : Display) : State := { s with disp := d }

/-! ### Timers, inputs and the parts of a step -/

/-- One timer's tick: down by 1 unless 0 (R31). -/
def tickDown (t : Byte) : Byte := if t = 0 then 0 else t - 1

/-- `TimerTick()` (R31). -/
def State.timerTick (s : State) : State := { s with dt := tickDown s.dt, st := tickDown s.st }

/-- The inputs of the coming step: the next one written down, else free values (R26, R27, log 5). -/
def State.input (s : State) : Input :=
  match s.inputs with
  | x :: _ => x
  | []     => ⟨Config.freeKeys s.freeIx, Config.freeRand s.freeIx⟩

/-- The step's inputs are used up (log 5). -/
def State.consumeInput (s : State) : State := { s with inputs := s.inputs.tail, freeIx := s.freeIx + 1 }

/-- The inputs a call of `Step(KEYS, RAND)` hands over, put before those of the coming steps. A halted core takes none:
it reads no input and changes nothing (R26, R175, R215). -/
def State.offerInput (keys : BitVec 16) (rand : Byte) (s : State) : State :=
  if s.halted then s else { s with inputs := ⟨keys, rand⟩ :: s.inputs }

/-- The instruction fetch `MemRead(pc, 2)` (R43), or the first address out of range (R173). -/
def fetch (s : State) : Except Nat Word :=
  match s.memRead s.pc.toNat, s.memRead (s.pc.toNat + 1) with
  | some hi, some lo => .ok (wordOfBytes hi lo)
  | some _, none     => .error (s.pc.toNat + 1)
  | none, _          => .error s.pc.toNat

/-- The step of a fetch fault at address `a` (R173): `pc` not advanced. -/
def fetchFault (a : Nat) (s : State) : State := (raise .outOfRange .mem a s).consumeInput

/-- The step of a decode fault on the word `w` (R174): `pc` advanced. -/
def decodeFault (w : Word) (s : State) : State :=
  (raise .unknownInstruction .mem w.toNat s.advancePc).consumeInput

/-- What follows an instruction: the timer tick, unless the instruction raised (R30 item 4, R172 b). -/
def endStep (s : State) : State := (if s.halted then s else s.timerTick).consumeInput

/-! ### Placing a word where the next step fetches -/

/-- The address the next fetch can use: `pc` if a whole word can be fetched there, else 0. -/
def fetchableAddr (s : State) : Nat := if s.pc.toNat ≤ 4094 then s.pc.toNat else 0

/-- The state with the two bytes at the place of the next fetch, able to step: not halted, `pc` fetchable (log 21). -/
def placeWord (bs : List Byte) (s : State) : State :=
  let s' := { s with
    pc := BitVec.ofNat 16 (fetchableAddr s)
    fault := if s.halted then FaultLatch.clear else s.fault }
  s'.storeBlock (fetchableAddr s) bs

end Sys2Proof.Machine
end

