-- ==== Sys2Proof/Machine/Boundary.lean ====
section
/-! DEFINITION. What the host sees and does between steps (spec/10_state.md R28, R29, 70_reset_and_hazards.md R200 to
R207, R215): the pixel port, the status outputs, the reset with a program image. -/

namespace Sys2Proof.Machine

/-- The pixel read port: 6-bit column, 5-bit row (R28). -/
def State.pixelPort (s : State) (x : BitVec 6) (y : BitVec 5) : Bool := pixel s.disp x.toFin y.toFin

/-- The source's `read_pixel` for any two numbers: nothing outside the grid (R28, R130 b). -/
def State.readPixel (s : State) (x y : Nat) : Option Bool :=
  if h : x < 64 ∧ y < 32 then some (pixel s.disp ⟨x, h.1⟩ ⟨y, h.2⟩) else none

/-- The output `SOUND` (R29 a). -/
def State.soundOut (s : State) : Bool := s.st != 0

/-- `FAULT.code` as the host reads it: 3 bits (R19, R171). -/
def FaultCode.bits : FaultCode → BitVec 3
  | .none => 0 | .outOfRange => 1 | .stackUnderflow => 2 | .stackOverflow => 3 | .unknownInstruction => 4
  | .romTooLarge => 5

/-- `FAULT.space` as the host reads it: 2 bits (R19). -/
def FaultSpace.bits : FaultSpace → BitVec 2
  | .mem => 0 | .display => 1 | .key => 2

/-- `Reset(rom)` (R200 to R207) of the machine with this state's configuration: nothing of the machine's state survives;
an image above `MAX_ROM` leaves the core halted with `RomTooLarge` and everything else as an empty image gives it. The
host's written inputs are not the machine's and stay (log 17). -/
def hostReset (rom : List Byte) (s : State) : State :=
  let fresh := { State.resetFor s.cfg with inputs := s.inputs, freeIx := s.freeIx }
  if rom.length ≤ s.cfg.maxRom then fresh.storeBlock s.cfg.progBase rom else raise .romTooLarge .mem 0 fresh

end Sys2Proof.Machine
end

