-- ==== Sys2Proof/Machine/Flags.lean ====
section
/-! DEFINITION. Every value the machine writes to its flag register `VF` (spec/10_state.md R12, 42_register_alu.md R111 f). -/

namespace Sys2Proof.Machine

/-- A flag as the byte 0 or 1. -/
def flagByte (b : Bool) : Byte := if b then 1 else 0

/-- Carry of an 8-bit addition: the unwrapped sum exceeds 255 (R106). -/
def carryFlag (a b : Byte) : Byte := flagByte (255 < a.toNat + b.toNat)

/-- Not-borrow of `minuend - subtrahend` (R107, R109). -/
def notBorrowFlag (minuend subtrahend : Byte) : Byte := flagByte (subtrahend.toNat ≤ minuend.toNat)

/-- The bit a right shift by one loses: bit 0 (R108). -/
def shiftedOutRight (s : Byte) : Byte := flagByte (s.getLsbD 0)

/-- The bit a left shift by one loses: bit 7 (R110). -/
def shiftedOutLeft (s : Byte) : Byte := flagByte (s.getLsbD 7)

/-- Whether `ADD I, Vx` sets `VF`: the unwrapped sum exceeds 0x0FFF (R122). -/
def indexExceeds (i : Word) (b : Byte) : Bool := 0x0FFF < i.toNat + b.toNat

/-- Writes a result, then the flag (R111 e): with `x` = 15 the flag wins. -/
def State.setResultThenFlag (s : State) (x : Reg) (result flag : Byte) : State :=
  (s.setReg x result).setReg VF flag

end Sys2Proof.Machine
end

