-- ==== Sys2Proof/Machine/Operands.lean ====
section
/-! DEFINITION. The operand forms (spec/30_encoding.md R63): immediates, the shift's source register, addresses through
`I`, key numbers, and the bytes the block instructions move. -/

namespace Sys2Proof.Machine

/-- `zext_16(NNN)`. -/
def zextAddr (nnn : BitVec 12) : Word := nnn.setWidth 16

/-- The address `I + k`, an unbounded integer (R44). -/
def State.indexed (s : State) (k : Nat) : Nat := s.index.toNat + k

/-- The source of `SHR` and `SHL`: `V[Y]`, or `V[X]` when `SHIFT_USES_VY` is false (R108, R110). -/
def State.shiftSource (s : State) (x y : Reg) : Byte := if s.cfg.shiftUsesVy then s.reg y else s.reg x

/-- The font address of a value: `FONT_BASE + v * 5`, multiplied first, not masked (R123). -/
def State.glyphAddr (s : State) (v : Byte) : Word := BitVec.ofNat 16 (s.cfg.fontBase + v.toNat * 5)

/-- The three decimal digits of a byte, hundreds first (R160). -/
def bcdDigits (v : Byte) : List Byte :=
  [BitVec.ofNat 8 (v.toNat / 100), BitVec.ofNat 8 (v.toNat / 10 % 10), BitVec.ofNat 8 (v.toNat % 10)]

/-- `V[0]` to `V[X]`, inclusive (R161). -/
def State.regsUpTo (s : State) (x : Reg) : List Byte := s.v.toList.take (x.val + 1)

/-- `V[j] <- MEM[I + j]` for `j` in 0 to `X`, inclusive (R162). -/
def State.loadRegsUpTo (s : State) (x : Reg) : State :=
  { s with v := Vector.ofFn fun j : Fin 16 => if j ≤ x then s.byteAt (s.indexed j.val) else s.reg j }

/-- The `n` sprite bytes at `I`, `I + 1`, ... (R132). -/
def State.spriteRows (s : State) (n : Nat) : List Byte := (List.range n).map fun r => s.byteAt (s.indexed r)

/-- Whether key `k` is pressed in the step's snapshot (R26). -/
def State.keyDown (s : State) (k : Nat) : Bool := s.input.keys.getLsbD k

/-- The lowest-numbered pressed key, if any (R142, the default of `KEY_SELECT`). -/
def lowestKey (keys : BitVec 16) : Option (Fin 16) := (List.finRange 16).find? fun k => keys.getLsbD k.val

/-- `KEY_SELECT(KEYS)` (R2, R142): nothing when no key is pressed, else a pressed key: the one the table names, if it
names a pressed one, else the lowest (log 4). -/
def selectKey (c : Config) (keys : BitVec 16) : Option (Fin 16) :=
  match c.keySelect.find? fun e => e.1 == keys && keys.getLsbD e.2.val with
  | some e => some e.2
  | none   => lowestKey keys

end Sys2Proof.Machine
end

