-- ==== Sys2Proof/Machine/Control.lean ====
section
/-! DEFINITION. Control transfer (spec/40_control_transfer.md). `pc` is the post-fetch value (R30). -/

namespace Sys2Proof.Machine

/-- `RET` (R80). -/
def execRet (s : State) : Result :=
  .next (if s.sp = 0 then raise .stackUnderflow .mem 0 s else s.popToPc)

/-- `JP addr` (R81). -/
def execJp (nnn : BitVec 12) (s : State) : Result := .next (s.setPc (zextAddr nnn))

/-- `CALL addr` (R82): the return address is the post-fetch `pc`. -/
def execCall (nnn : BitVec 12) (s : State) : Result :=
  .next (if s.sp = s.cfg.stackDepth then raise .stackOverflow .mem 0 s else (s.push s.pc).setPc (zextAddr nnn))

/-- `JP V0, addr` (R83): the sum is not reduced to 12 bits. -/
def execJpV0 (nnn : BitVec 12) (s : State) : Result :=
  .next (s.setPc (BitVec.ofNat 16 ((s.reg 0).toNat + nnn.toNat)))

end Sys2Proof.Machine
end

