-- ==== Sys2Proof/Machine/Draw.lean ====
section
/-! DEFINITION. Display instructions and the XOR/collision unit (spec/44_display.md). -/

namespace Sys2Proof.Machine

/-- A display being drawn on, and whether a toggle has met a pixel that was on. -/
abbrev Canvas := Display × Bool

/-- One sprite bit at column `x`, row `y`: clipped outside the grid, nothing when 0, else a toggle whose previous value
is a collision (R132). -/
def drawBit (cv : Canvas) (x y : Nat) (bit : Bool) : Canvas :=
  if h : x < 64 ∧ y < 32 ∧ bit = true then
    let (old, d) := toggle cv.1 ⟨x, h.1⟩ ⟨y, h.2.1⟩
    (d, cv.2 || old)
  else cv

/-- One sprite byte, most significant bit at the starting column `x0` (R132). -/
def drawRow (cv : Canvas) (x0 y : Nat) (b : Byte) : Canvas :=
  (List.range 8).foldl (fun cv c => drawBit cv (x0 + c) y (b.getLsbD (7 - c))) cv

/-- The sprite bytes, one row each, downward from row `y` (R132). -/
def drawRows (cv : Canvas) (x0 y : Nat) : List Byte → Canvas
  | []      => cv
  | b :: bs => drawRows (drawRow cv x0 y b) x0 (y + 1) bs

/-- `CLS` (R131). -/
def execCls (s : State) : Result := .next (s.setDisp clearedDisplay)

/-- `DRW Vx, Vy, nibble` (R132): only the starting coordinates wrap; `VF` is the collision flag. -/
def execDrw (x y : Reg) (n : Nat) (s : State) : Result :=
  onBlock (s.indexed 0) n (fun s =>
    let cv := drawRows (s.disp, false) ((s.reg x).toNat % 64) ((s.reg y).toNat % 32) (s.spriteRows n)
    (s.setDisp cv.1).setReg VF (flagByte cv.2)) s

end Sys2Proof.Machine
end

