-- ==== Sys2Proof/Machine/IndexRandom.lean ====
section
/-! DEFINITION. Index register and random (spec/43_index_and_random.md). -/

namespace Sys2Proof.Machine

/-- `LD I, addr` (R120). -/
def execLdI (nnn : BitVec 12) (s : State) : Result := .next (s.setIndex (zextAddr nnn))

/-- `RND Vx, byte` (R121): the step's `RAND` masked by the immediate. -/
def execRnd (x : Reg) (nn : Byte) (s : State) : Result := .next (s.setReg x (s.input.rand &&& nn))

/-- `ADD I, Vx` (R122): `VF` becomes 1 when the unwrapped sum exceeds 0x0FFF and is not written otherwise. -/
def execAddI (x : Reg) (s : State) : Result :=
  let sum := s.setIndex (BitVec.ofNat 16 (s.index.toNat + (s.reg x).toNat))
  .next (if indexExceeds s.index (s.reg x) then sum.setReg VF 1 else sum)

/-- `LD F, Vx` (R123). -/
def execLdF (x : Reg) (s : State) : Result := .next (s.setIndex (s.glyphAddr (s.reg x)))

end Sys2Proof.Machine
end

