-- ==== Sys2Proof/Machine/Keypad.lean ====
section
/-! DEFINITION. Keypad instructions (spec/45_keypad.md). -/

namespace Sys2Proof.Machine

/-- A skip on the state of the key numbered `V[X]`, a number above 15 raising `OutOfRange(KEY, k)` (R140, R141). -/
def keySkip (x : Reg) (whenDown : Bool) (s : State) : State :=
  let k := (s.reg x).toNat
  if 15 < k then raise .outOfRange .key k s else s.skipIf (s.keyDown k == whenDown)

/-- `SKP Vx` (R140). -/
def execSkp (x : Reg) (s : State) : Result := .next (keySkip x true s)

/-- `SKNP Vx` (R141). -/
def execSknp (x : Reg) (s : State) : Result := .next (keySkip x false s)

/-- `LD Vx, K` (R142): with no key pressed `pc` goes back to this instruction, else the selected key is stored. -/
def execLdVxK (x : Reg) (s : State) : Result :=
  .next (match selectKey s.cfg s.input.keys with
    | none   => s.setPc (s.pc - 2)
    | some k => s.setReg x (BitVec.ofNat 8 k.val))

end Sys2Proof.Machine
end

