-- ==== Sys2Proof/Machine/Transfer.lean ====
section
/-! DEFINITION. Memory transfer (spec/47_memory_transfer.md). The range is tested before anything is written; `I` does
not move. -/

namespace Sys2Proof.Machine

/-- `LD B, Vx` (R160). -/
def execLdB (x : Reg) (s : State) : Result :=
  onBlock (s.indexed 0) 3 (fun s => s.storeBlock (s.indexed 0) (bcdDigits (s.reg x))) s

/-- `LD [I], Vx` (R161). -/
def execStRegs (x : Reg) (s : State) : Result :=
  onBlock (s.indexed 0) (x.val + 1) (fun s => s.storeBlock (s.indexed 0) (s.regsUpTo x)) s

/-- `LD Vx, [I]` (R162). -/
def execLdRegs (x : Reg) (s : State) : Result :=
  onBlock (s.indexed 0) (x.val + 1) (fun s => s.loadRegsUpTo x) s

end Sys2Proof.Machine
end

