-- ==== Sys2Proof/Machine/Step.lean ====
section
/-! DEFINITION. One step (spec/10_state.md R30): halted check, fetch, advance, decode, execute, tick. -/

namespace Sys2Proof.Machine

/-- `Step(KEYS, RAND)` with the inputs that the state's own fields give it (`State.input`). -/
def step (s : State) : Host.Outcome State Fault Refusal :=
  if s.halted then .next s
  else
    match fetch s with
    | .error a => .next (fetchFault a s)
    | .ok w =>
      match decode w with
      | .error _ => .next (decodeFault w s)
      | .ok i =>
        match exec i s.advancePc with
        | .next t    => .next (endStep t)
        | .fault r   => .fault r
        | .refused r => .refused r

/-- `Step(KEYS, RAND)` with the inputs the host hands over with this call (R215). The step uses them up, so no copy is
kept (R26), and a halted core does not take them (R175). -/
def stepWith (keys : BitVec 16) (rand : Byte) (s : State) : Host.Outcome State Fault Refusal :=
  step (s.offerInput keys rand)

/-- The state with a table word placed where `step` fetches its next instruction (log 21). -/
def State.withFetchWord (s : State) (nbits w : Nat) : State := placeWord (tableBytes nbits w) s

end Sys2Proof.Machine
end

