-- ==== Sys2Proof/Safety.lean ====
section
/-! DEFINITION. The terms the statements use: running and legal states (the invariant), and what it means for a part of
the state to be unchanged. -/

namespace Sys2Proof.Machine

/-- The core is running: no fault is latched (spec/60_exceptions.md R175). -/
def State.running (s : State) : Prop := s.fault.code = .none

/-- A run of `k` steps from `s` is safe: it ends in a running state, so no step of it has raised (R175, R213). -/
def SafeRun (k : Nat) (s : State) : Prop := ∃ t, Host.Core.run Sys2Proof.core k s = .next t ∧ t.running

/-! ### The invariant -/

/-- The call stack has its depth, `SP` lies within it, and every valid entry is a return address `CALL` can have
pushed, 2 to 4096 (R16, R80). -/
abbrev State.stackLegal (s : State) : Prop :=
  s.stack.length = s.cfg.stackDepth ∧ s.sp ≤ s.cfg.stackDepth ∧
    ∀ k, k < s.sp → 2 ≤ (s.stackAt k).toNat ∧ (s.stackAt k).toNat ≤ 4096

/-- `pc <= 0x10FE` (R15 c). -/
abbrev State.pcLegal (s : State) : Prop := s.pc.toNat ≤ 0x10FE

/-- The latch holds only what R171 lists: the display space never, a key space only with `OutOfRange` of a byte above
15, an address of `OutOfRange(MEM)` above 4095, and nothing beside the codes that record nothing. -/
abbrev FaultLatch.legal (f : FaultLatch) : Prop :=
  match f.code, f.space with
  | .outOfRange, .mem         => 4096 ≤ f.info.toNat
  | .outOfRange, .key         => 16 ≤ f.info.toNat ∧ f.info.toNat ≤ 255
  | .outOfRange, .display     => False
  | .unknownInstruction, sp   => sp = .mem
  | .none, sp                 => sp = .mem ∧ f.info = 0
  | .stackUnderflow, sp       => sp = .mem ∧ f.info = 0
  | .stackOverflow, sp        => sp = .mem ∧ f.info = 0
  | .romTooLarge, sp          => sp = .mem ∧ f.info = 0

/-- What every reachable state satisfies. -/
structure State.Inv (s : State) : Prop where
  cfg   : s.cfg.wellFormed = true
  mem   : Memory.wf s.cfg s.mem
  stack : s.stackLegal
  pc    : s.pcLegal
  fault : s.fault.legal

/-! ### Frames: which parts of the state are unchanged from `s` to `t` -/

/-- The parts of the machine's state that a frame tells apart (R22). -/
inductive Part where
  | reg (r : Reg) | index | pc | stack | sp | dt | st | fault | mem | disp
  deriving DecidableEq, Repr

/-- A part holds after what it held before. Memory is read byte by byte, the display pixel by pixel. -/
def Unchanged (s t : State) : Part → Prop
  | .reg r => t.reg r = s.reg r
  | .index => t.index = s.index
  | .pc    => t.pc = s.pc
  | .stack => t.stack = s.stack
  | .sp    => t.sp = s.sp
  | .dt    => t.dt = s.dt
  | .st    => t.st = s.st
  | .fault => t.fault = s.fault
  | .mem   => ∀ a, t.memRead a = s.memRead a
  | .disp  => ∀ x y, pixel t.disp x y = pixel s.disp x y

/-- Every part outside the list is unchanged, and so are the configuration and the model's own input fields. -/
def OnlyChanges (ps : List Part) (s t : State) : Prop :=
  (∀ p, p ∉ ps → Unchanged s t p) ∧ t.cfg = s.cfg ∧ t.inputs = s.inputs ∧ t.freeIx = s.freeIx

/-- Every byte of memory outside the `n` addresses from `base` reads as before. -/
def MemKeptOutside (base n : Nat) (s t : State) : Prop :=
  ∀ a, ¬ (base ≤ a ∧ a < base + n) → t.memRead a = s.memRead a

/-! ### What an instruction may write and may raise, from the spec's own lists -/

/-- The registers `V[0]` to `V[X]`. -/
def partsUpTo (x : Reg) : List Part := ((List.finRange 16).filter fun j => decide (j ≤ x)).map Part.reg

/-- The parts an instruction's rule lets it write (the "writes" of R80 to R162, R11 to R21), and the latch where its
rule lets it raise (R171). -/
def mayWrite : Instr → List Part
  | .cls => [.disp]
  | .ret => [.sp, .pc, .fault]
  | .jp _ | .jpV0 _ => [.pc]
  | .call _ => [.stack, .sp, .pc, .fault]
  | .seImm _ _ | .sneImm _ _ | .seReg _ _ | .sneReg _ _ => [.pc]
  | .ldImm x _ | .addImm x _ | .rnd x _ => [.reg x]
  | .ldReg x _ | .orReg x _ | .andReg x _ | .xorReg x _ => [.reg x]
  | .addReg x _ | .sub x _ | .subn x _ | .shr x _ | .shl x _ => [.reg x, .reg VF]
  | .ldI _ | .ldF _ => [.index]
  | .addI _ => [.index, .reg VF]
  | .drw _ _ _ => [.disp, .reg VF, .fault]
  | .skp _ | .sknp _ => [.pc, .fault]
  | .ldVxK x => [.reg x, .pc]
  | .ldVxDt x => [.reg x]
  | .ldDtVx _ => [.dt]
  | .ldStVx _ => [.st]
  | .ldB _ | .stRegs _ => [.mem, .fault]
  | .ldRegs x => .fault :: partsUpTo x

/-- The latch value of `OutOfRange(MEM, max(I, 4096))` when the last of `n` addresses from `I` exceeds 4095 (R171). -/
def rangeFault (s : State) (n : Nat) : Option FaultLatch :=
  if 1 ≤ n ∧ 4095 < s.index.toNat + (n - 1) then
    some ⟨.outOfRange, .mem, BitVec.ofNat 16 (max s.index.toNat 4096)⟩
  else none

/-- What an instruction raises in a state: the table of R171. -/
def faultOf (s : State) : Instr → Option FaultLatch
  | .drw _ _ n => rangeFault s n
  | .ldB _ => rangeFault s 3
  | .stRegs x | .ldRegs x => rangeFault s (x.val + 1)
  | .skp x | .sknp x =>
    if 15 < (s.reg x).toNat then some ⟨.outOfRange, .key, BitVec.ofNat 16 (s.reg x).toNat⟩ else none
  | .ret => if s.sp = 0 then some ⟨.stackUnderflow, .mem, 0⟩ else none
  | .call _ => if s.sp = s.cfg.stackDepth then some ⟨.stackOverflow, .mem, 0⟩ else none
  | .cls | .jp _ | .jpV0 _ | .seImm _ _ | .sneImm _ _ | .seReg _ _ | .sneReg _ _ | .ldImm _ _ | .addImm _ _
  | .ldReg _ _ | .orReg _ _ | .andReg _ _ | .xorReg _ _ | .addReg _ _ | .sub _ _ | .subn _ _ | .shr _ _ | .shl _ _
  | .ldI _ | .rnd _ _ | .ldVxDt _ | .ldDtVx _ | .ldStVx _ | .addI _ | .ldVxK _ | .ldF _ => none

/-- The sprite bit that a draw puts on pixel (`px`, `py`): bit `7 - c` of `MEM[I + r]` for the `r`, `c` with
`y0 + r = py`, `x0 + c = px`, and 0 where the sprite does not reach (R132, the equivalent statement). -/
def spriteBitAt (s : State) (x y : Reg) (n : Nat) (px : Fin 64) (py : Fin 32) : Bool :=
  let x0 := (s.reg x).toNat % 64
  let y0 := (s.reg y).toNat % 32
  decide (x0 ≤ px.val ∧ px.val < x0 + 8 ∧ y0 ≤ py.val ∧ py.val < y0 + n) &&
    (s.byteAt (s.index.toNat + (py.val - y0))).getLsbD (7 - (px.val - x0))

/-! ### Words written as numbers from the patterns of R66 -/

/-- A word of format `A`: the row's `match` plus `NNN`. -/
def wordA (pattern : Nat) (nnn : BitVec 12) : Word := BitVec.ofNat 16 (pattern + nnn.toNat)

/-- A word of format `XI` or `XF`: the row's `match` plus `X` and the byte in their places. -/
def wordXB (pattern : Nat) (x : Reg) (b : Byte) : Word := BitVec.ofNat 16 (pattern + x.val * 256 + b.toNat)

/-- A word of format `XY`, `XYF` or `XYN`: the row's `match` plus `X`, `Y` and the nibble in their places. -/
def wordXYN (pattern : Nat) (x y : Reg) (n : Fin 16) : Word :=
  BitVec.ofNat 16 (pattern + x.val * 256 + y.val * 16 + n.val)

end Sys2Proof.Machine
end

