-- ==== Sys2Proof/Certificates/Slice0/Obligations.lean ====
section
/-! DEFINITION. The statements for the provers. Each docstring names the rule of spec/ it rests on; where a rule is the
spec's own decision (D<n> of 92_eei_decisions.md) or the model's choice (a log entry), it says so. -/

open Sys2Proof Sys2Proof.Machine

/-! ## Encoding -/

/-- Decoding the bytes of a well-formed instruction gives it back with every operand, and the bytes after it
(30_encoding.md sections 1 to 3; the canonical word is R69, decision D22). -/
def Obligations.DecodeInvertsEncode : Prop :=
  ∀ (i : Instr) (rest : List Byte), i.wellFormed = true → decodeBytes (encodeBytes i ++ rest) = .ok (i, rest)

/-- R66: the decoder reads an instruction from a word exactly when the word matches a row of the 34-row opcode map, and
it is that row's instruction. -/
def Obligations.DecodeFollowsOpcodeMap : Prop :=
  opcodeMap.length = 34 ∧
    ∀ (w : Word) (i : Instr),
      decode w = .ok i ↔ ∃ r, r ∈ opcodeMap ∧ w &&& r.mask = r.pattern ∧ i = r.build w

/-- 30_encoding.md section 3 (R64): no word matches two rows of the opcode map. -/
def Obligations.OpcodeRowsExclusive : Prop :=
  opcodeMap.Pairwise fun p q => ∀ w : Word, ¬ (w &&& p.mask = p.pattern ∧ w &&& q.mask = q.pattern)

/-- 30_encoding.md section 3 (R67 a to d, its counts left out): the illegal words are exactly those of families 0, 8, E
and F with no listed selector, and each is refused with the word itself. -/
def Obligations.IllegalWordsAreRefused : Prop :=
  ∀ w : Word,
    (∀ e, decode w = .error e → e = .unknownInstruction w) ∧
    (decode w = .error (.unknownInstruction w) ↔
      (w.toNat / 4096 = 0 ∧ w.toNat % 256 ∉ [0xE0, 0xEE]) ∨
      (w.toNat / 4096 = 8 ∧ w.toNat % 16 ∈ [0x8, 0x9, 0xA, 0xB, 0xC, 0xD, 0xF]) ∨
      (w.toNat / 4096 = 0xE ∧ w.toNat % 256 ∉ [0x9E, 0xA1]) ∨
      (w.toNat / 4096 = 0xF ∧ w.toNat % 256 ∉ [0x07, 0x0A, 0x15, 0x18, 0x1E, 0x29, 0x33, 0x55, 0x65]))

/-- 30_encoding.md section 3 (R65, the spec's decision D17): the bits the decoder ignores. Every `0X E0` is `CLS`, every
`0X EE` is `RET`, the low nibble of families 5 and 9 selects nothing, and `Y` is no selector of the shifts. -/
def Obligations.IgnoredBitsSelectNothing : Prop :=
  ∀ (x y n : Fin 16),
    decode (wordXB 0x0000 x 0xE0) = .ok .cls ∧ decode (wordXB 0x0000 x 0xEE) = .ok .ret ∧
    decode (wordXYN 0x5000 x y n) = .ok (.seReg x y) ∧ decode (wordXYN 0x9000 x y n) = .ok (.sneReg x y) ∧
    decode (wordXYN 0x8006 x y 0) = .ok (.shr x y) ∧ decode (wordXYN 0x800E x y 0) = .ok (.shl x y)

/-- Words of 95_test_vectors.md written out, one of each of the 16 families and a timer instruction, decode to the
instruction they stand for, and one illegal word is refused. That the words 0x0AE0 and 0x512F, whose ignored bits are
not 0, run at all is the spec's decision D17 (log 14). -/
def Obligations.WrittenWordsDecode : Prop :=
  decode 0x0AE0#16 = .ok .cls ∧ decode 0x1ABC#16 = .ok (.jp 0xABC#12) ∧ decode 0x2300#16 = .ok (.call 0x300#12) ∧
  decode 0x332A#16 = .ok (.seImm 3 0x2A#8) ∧ decode 0x432A#16 = .ok (.sneImm 3 0x2A#8) ∧
  decode 0x512F#16 = .ok (.seReg 1 2) ∧ decode 0x6A02#16 = .ok (.ldImm 10 0x02#8) ∧
  decode 0x7205#16 = .ok (.addImm 2 0x05#8) ∧ decode 0x8127#16 = .ok (.subn 1 2) ∧
  decode 0x9120#16 = .ok (.sneReg 1 2) ∧ decode 0xA22A#16 = .ok (.ldI 0x22A#12) ∧
  decode 0xB3FE#16 = .ok (.jpV0 0x3FE#12) ∧ decode 0xC30F#16 = .ok (.rnd 3 0x0F#8) ∧
  decode 0xD123#16 = .ok (.drw 1 2 3) ∧ decode 0xE5A1#16 = .ok (.sknp 5) ∧ decode 0xF307#16 = .ok (.ldVxDt 3) ∧
  decode 0xF50A#16 = .ok (.ldVxK 5) ∧ decode 0xFF55#16 = .ok (.stRegs 15) ∧
  decode 0x8128#16 = .error (.unknownInstruction 0x8128#16)

/-! ## The step, faults and timers -/

/-- 10_state.md section 6 (R30; item 0 is the spec's decision D18; log 5 for what becomes of the inputs): a running core
whose fetched word decodes to `i` does `exec i` on the state with `pc` advanced by 2, then one timer tick unless the
instruction raised, and has used up its inputs. -/
def Obligations.StepRunsDecodedInstruction : Prop :=
  ∀ (s : State) (hi lo : Byte) (i : Instr), s.fault.code = .none →
    s.memRead s.pc.toNat = some hi → s.memRead (s.pc.toNat + 1) = some lo →
    decode (BitVec.ofNat 16 (hi.toNat * 256 + lo.toNat)) = .ok i →
    ∃ u, exec i { s with pc := s.pc + 2 } = .next u ∧
      step s = .next { u with
        dt := if u.fault.code = .none then tickDown u.dt else u.dt
        st := if u.fault.code = .none then tickDown u.st else u.st
        inputs := s.inputs.tail
        freeIx := s.freeIx + 1 }

/-- 20_memory.md section 2 (R43): an instruction word is big-endian, from any address, and a fetch beyond 4094 reports
the first address out of range. -/
def Obligations.FetchIsBigEndian : Prop :=
  ∀ s : State,
    (s.pc.toNat ≤ 4094 → ∃ hi lo w, s.memRead s.pc.toNat = some hi ∧ s.memRead (s.pc.toNat + 1) = some lo ∧
      fetch s = .ok w ∧ w.toNat = hi.toNat * 256 + lo.toNat) ∧
    (s.pc.toNat = 4095 → fetch s = .error 4096) ∧
    (4095 < s.pc.toNat → fetch s = .error s.pc.toNat)

/-- 60_exceptions.md section 2 (R173, R172): a step that starts with `pc` above 4094 latches `OutOfRange(MEM, a)` and
changes nothing else of the machine; `pc` is not advanced and no timer ticks. The latch's numbers are
decision D19, and that nothing else changes is D18 (log 12). -/
def Obligations.FetchFaultLatches : Prop :=
  ∀ s : State, s.fault.code = .none → 4094 < s.pc.toNat →
    step s = .next { s with
      fault := ⟨.outOfRange, .mem, if 4095 < s.pc.toNat then s.pc else 4096⟩
      inputs := s.inputs.tail
      freeIx := s.freeIx + 1 }

/-- 60_exceptions.md section 2 (R174): a word that matches no row latches `UnknownInstruction(w)` after the advance of
`pc`, and changes nothing else of the machine. The latch's numbers are
decision D19, and that nothing else changes is D18 (log 12). -/
def Obligations.DecodeFaultLatches : Prop :=
  ∀ (s : State) (w : Word), s.fault.code = .none → fetch s = .ok w →
    (∀ r, r ∈ opcodeMap → w &&& r.mask ≠ r.pattern) →
    step s = .next { s with
      pc := s.pc + 2
      fault := ⟨.unknownInstruction, .mem, w⟩
      inputs := s.inputs.tail
      freeIx := s.freeIx + 1 }

/-- 60_exceptions.md section 2 (R175, the spec's decision D18): a halted core stays exactly as it is for any number of
steps, and every output with it. -/
def Obligations.HaltedCoreStays : Prop :=
  ∀ (k : Nat) (s : State), s.fault.code ≠ .none → Host.Core.run Sys2Proof.core k s = .next s

/-- 70_reset_and_hazards.md section 3 (R212): a step is a total function of the state and its inputs: in every state and
for every inputs it answers a next state, never a stop. -/
def Obligations.StepIsTotal : Prop :=
  ∀ (keys : BitVec 16) (rand : Byte) (s : State),
    (∃ t, step s = .next t) ∧ ∃ t, stepWith keys rand s = .next t

/-- 10_state.md section 6 (R31; that the tick also follows a waiting `LD Vx, K` is the spec's decision D10, that a
raising step does not tick D18): every step that does not raise ends with one tick of each timer, on the values the
instruction left: down by exactly 1 while above 0, held at 0. Only `LD DT, Vx` and `LD ST, Vx` leave another value than
the old one, and `LD Vx, DT` reads `DT` before the tick. A step that raises ticks neither. -/
def Obligations.TimersTickOncePerStep : Prop :=
  ∀ (s t : State), s.fault.code = .none → step s = .next t →
    (t.fault.code ≠ .none → t.dt = s.dt ∧ t.st = s.st) ∧
    (t.fault.code = .none → ∃ w i, fetch s = .ok w ∧ decode w = .ok i ∧
      t.dt.toNat = (match i with | .ldDtVx x => (s.reg x).toNat | _ => s.dt.toNat) - 1 ∧
      t.st.toNat = (match i with | .ldStVx x => (s.reg x).toNat | _ => s.st.toNat) - 1 ∧
      ∀ x, i = .ldVxDt x → t.reg x = s.dt)

/-- 60_exceptions.md section 2 (R172, the spec's decision D18): faults are precise. A step that raises changes the
latch, may have advanced `pc` by 2, has used up its inputs (log 5), and leaves all else as it was. -/
def Obligations.FaultsArePrecise : Prop :=
  ∀ (s t : State), s.fault.code = .none → step s = .next t → t.fault.code ≠ .none →
    (t.pc = s.pc ∨ t.pc = s.pc + 2) ∧
    t = { s with fault := t.fault, pc := t.pc, inputs := s.inputs.tail, freeIx := s.freeIx + 1 }

/-- 60_exceptions.md sections 1 and 2 (R171, R172; the numbers are decisions D12 and D19; that a raise has written
nothing but the latch, with no partial write of a block, is the spec's decision D18, log 12): an instruction raises
exactly what the fault table gives for it, when it gives it, and then has written nothing but the latch. -/
def Obligations.InstructionsRaiseTheFaultTable : Prop :=
  ∀ (i : Instr) (s : State), ∃ t, exec i s = .next t ∧ t.fault = (faultOf s i).getD s.fault ∧
    (∀ f, faultOf s i = some f → t = { s with fault := f })

/-- 10_state.md sections 2 to 4 (R11 to R21; that a raise writes nothing but the latch is the spec's decision D18,
log 12): whatever an instruction does, it writes only the parts of the state its rule names, in every state. Of memory,
`LD B` writes at most the 3 bytes from `I` and `LD [I], Vx` at most the `X` + 1 bytes from `I`, and every other byte
stays (R160, R161). -/
def Obligations.InstructionsWriteOnlyTheirParts : Prop :=
  ∀ (i : Instr) (s t : State), exec i s = .next t →
    OnlyChanges (mayWrite i) s t ∧
    (∀ x, i = .ldB x → MemKeptOutside s.index.toNat 3 s t) ∧
    (∀ x, i = .stRegs x → MemKeptOutside s.index.toNat (x.val + 1) s t)

/-- 10_state.md section 2 (R12; the flag is written after the result by decision D16, rule R111, log 23; that or, and,
exclusive or leave `VF` alone is log 19; that the latch alone is written by a raise is D18, log 12): the flag writers.
The five arithmetic ones and a `DRW` that does not raise write exactly 0 or 1; `ADD I, Vx` writes 1 or leaves `VF`;
any other instruction changes `VF` only if its `X` field is 15. -/
def Obligations.FlagWritersOfVF : Prop :=
  ∀ (i : Instr) (s t : State), exec i s = .next t →
    match i with
    | .addReg _ _ | .sub _ _ | .subn _ _ | .shr _ _ | .shl _ _ => t.reg VF = 0 ∨ t.reg VF = 1
    | .drw _ _ n => faultOf s (.drw 0 0 n) = none → t.reg VF = 0 ∨ t.reg VF = 1
    | .addI _ => t.reg VF = 1 ∨ t.reg VF = s.reg VF
    | .ldImm x _ | .addImm x _ | .rnd x _ | .ldReg x _ | .orReg x _ | .andReg x _ | .xorReg x _ | .ldVxDt x
    | .ldVxK x | .ldRegs x => x ≠ VF → t.reg VF = s.reg VF
    | .cls | .ret | .jp _ | .call _ | .jpV0 _ | .seImm _ _ | .sneImm _ _ | .seReg _ _ | .sneReg _ _ | .ldI _ | .ldF _
    | .skp _ | .sknp _ | .ldDtVx _ | .ldStVx _ | .ldB _ | .stRegs _ => t.reg VF = s.reg VF

/-! ## Invariant and reset -/

/-- Every step from a legal state leads to a legal one: canonical memory, call stack within its depth with return
addresses 2 to 4096 (R16), `pc` at most 0x10FE (R15 c), a latch value the fault table lists (R171), the configuration
well formed (R2). Model invariant; canonical memory is log 7. -/
def Obligations.StepKeepsInvariant : Prop :=
  ∀ (s t : State), s.Inv → step s = .next t → t.Inv

/-- The invariant holds at reset. -/
def Obligations.ResetIsLegal : Prop := State.reset.Inv

/-- 70_reset_and_hazards.md section 1 (R200): a reset with any image, from any state of a well-configured machine, leads
to a legal state. -/
def Obligations.HostResetIsLegal : Prop :=
  ∀ (rom : List Byte) (s : State), s.cfg.wellFormed = true → (hostReset rom s).Inv

/-- R201: memory after a successful reset, every address. -/
def Obligations.ResetMemoryContents : Prop :=
  ∀ (rom : List Byte) (s : State) (a : Nat), s.cfg.wellFormed = true → rom.length ≤ 4096 - s.cfg.progBase → a < 4096 →
    (hostReset rom s).memRead a = some (
      if s.cfg.fontBase ≤ a ∧ a ≤ s.cfg.fontBase + 79 then s.cfg.fontData.toList.getD (a - s.cfg.fontBase) 0
      else if s.cfg.progBase ≤ a ∧ a < s.cfg.progBase + rom.length then rom.getD (a - s.cfg.progBase) 0
      else 0)

/-- R202 and R205: after a successful reset `pc` is `PROG_BASE`, the first fetch is of the image's first word (zeros
where the image is shorter), and every pixel is off. -/
def Obligations.ResetEntryAndDisplay : Prop :=
  ∀ (rom : List Byte) (s : State), s.cfg.wellFormed = true → rom.length ≤ 4096 - s.cfg.progBase →
    (hostReset rom s).pc.toNat = s.cfg.progBase ∧
    (s.cfg.progBase ≤ 4094 → ∃ w, fetch (hostReset rom s) = .ok w ∧
      w.toNat = (rom.getD 0 0).toNat * 256 + (rom.getD 1 0).toNat) ∧
    ∀ x y, pixel (hostReset rom s).disp x y = false

/-- 70_reset_and_hazards.md section 1 (R203, R204, R206: the spec's decisions D5 and D18, log 8): registers, timers and
the stack are zero, the core is running; nothing of the previous state survives but the configuration and the host's
own inputs (log 17). -/
def Obligations.ResetRegistersAreZero : Prop :=
  ∀ (rom : List Byte) (s : State), rom.length ≤ 4096 - s.cfg.progBase →
    let t := hostReset rom s
    (∀ r, t.reg r = 0) ∧ t.index = 0 ∧ t.dt = 0 ∧ t.st = 0 ∧ t.sp = 0 ∧
    t.stack.length = s.cfg.stackDepth ∧ (∀ k, t.stackAt k = 0) ∧
    t.fault = ⟨.none, .mem, 0⟩ ∧ t.soundOut = false ∧
    ∀ s', s'.cfg = s.cfg → s'.inputs = s.inputs → s'.freeIx = s.freeIx → hostReset rom s' = t

/-- 70_reset_and_hazards.md section 1 (R207, the spec's decision D20): an image above `MAX_ROM` leaves the core halted
with `RomTooLarge`, everything else as an empty image gives it. -/
def Obligations.OversizedImageHalts : Prop :=
  ∀ (rom : List Byte) (s : State), 4096 - s.cfg.progBase < rom.length →
    (hostReset rom s).fault.code = .romTooLarge ∧
    hostReset rom s = { hostReset [] s with fault := (hostReset rom s).fault } ∧
    step (hostReset rom s) = .next (hostReset rom s)

/-! ## Control transfer and skips -/

/-- 40_control_transfer.md (R80): `RET` pops the top entry into `pc`, whole; on an empty stack it raises
`StackUnderflow` and changes nothing else (the spec's decision D18, log 12). Its word is `0-EE` whatever bits 11:8 are
(the spec's decision D17, log 14). -/
def Obligations.ReturnPopsIntoPc : Prop :=
  (∀ x : Fin 16, decode (wordXB 0x0000 x 0xEE) = .ok .ret) ∧
  ∀ s : State,
    (s.sp = 0 → ∃ t, exec .ret s = .next t ∧ t.fault.code = .stackUnderflow ∧ t = { s with fault := t.fault }) ∧
    (s.sp ≠ 0 → s.sp ≤ s.stack.length → ∃ t, exec .ret s = .next t ∧ s.stack[s.sp - 1]? = some t.pc ∧
      t.sp = s.sp - 1 ∧ OnlyChanges [.sp, .pc] s t)

/-- R81: `JP addr` sets `pc` to the low 12 bits and nothing else. -/
def Obligations.JumpGoesToLowTwelveBits : Prop :=
  ∀ (nnn : BitVec 12) (s : State), decode (wordA 0x1000 nnn) = .ok (.jp nnn) ∧
    ∃ t, exec (.jp nnn) s = .next t ∧ t.pc.toNat = nnn.toNat ∧ OnlyChanges [.pc] s t

/-- 40_control_transfer.md (R82, bounded depth is the spec's decision D4, log 16; that a raise changes nothing
else is D18, log 12): `CALL` pushes the post-fetch `pc` and jumps;
on a full stack it raises `StackOverflow` and changes nothing else. -/
def Obligations.CallPushesAndJumps : Prop :=
  ∀ (nnn : BitVec 12) (s : State), decode (wordA 0x2000 nnn) = .ok (.call nnn) ∧
    (s.sp = s.cfg.stackDepth → exec (.call nnn) s = .next { s with fault := ⟨.stackOverflow, .mem, 0⟩ }) ∧
    (s.sp ≠ s.cfg.stackDepth → ∃ t, exec (.call nnn) s = .next t ∧ t.pc.toNat = nnn.toNat ∧ t.sp = s.sp + 1 ∧
      t.stack.length = s.stack.length ∧ (s.sp < s.stack.length → t.stack[s.sp]? = some s.pc) ∧
      (∀ k, k ≠ s.sp → t.stack[k]? = s.stack[k]?) ∧ OnlyChanges [.stack, .sp, .pc] s t)

/-- 40_control_transfer.md (R83, the spec's decision D13): `JP V0, addr` sets `pc` to `V[0] + NNN`, not reduced to 12
bits. -/
def Obligations.JumpOffsetIsNotReduced : Prop :=
  ∀ (nnn : BitVec 12) (s : State), decode (wordA 0xB000 nnn) = .ok (.jpV0 nnn) ∧
    ∃ t, exec (.jpV0 nnn) s = .next t ∧ t.pc.toNat = (s.reg 0).toNat + nnn.toNat ∧ OnlyChanges [.pc] s t

/-- 95_test_vectors.md S4 (R80, R82): a call followed at once by a return brings `pc` back to the address after the
call, with the stack as deep as before. -/
def Obligations.CallThenReturnComesBack : Prop :=
  ∀ (nnn : BitVec 12) (s : State) (w w' : Word), s.fault.code = .none → s.stackLegal → s.sp < s.cfg.stackDepth →
    fetch s = .ok w → decode w = .ok (.call nnn) →
    fetch { s with pc := nnn.setWidth 16 } = .ok w' → decode w' = .ok .ret →
    ∃ t u, step s = .next t ∧ step t = .next u ∧ t.pc.toNat = nnn.toNat ∧ t.sp = s.sp + 1 ∧
      u.pc = s.pc + 2 ∧ u.sp = s.sp ∧ u.fault = s.fault ∧ (∀ r, u.reg r = s.reg r)

/-- R90, R91: the skips on an immediate: 2 more on equal, or on different, and nothing but `pc` is written. -/
def Obligations.ImmediateSkips : Prop :=
  ∀ (x : Reg) (nn : Byte) (s : State),
    decode (wordXB 0x3000 x nn) = .ok (.seImm x nn) ∧ decode (wordXB 0x4000 x nn) = .ok (.sneImm x nn) ∧
    (∃ t, exec (.seImm x nn) s = .next t ∧ t.pc = (if (s.reg x).toNat = nn.toNat then s.pc + 2 else s.pc) ∧
      OnlyChanges [.pc] s t) ∧
    (∃ t, exec (.sneImm x nn) s = .next t ∧ t.pc = (if (s.reg x).toNat = nn.toNat then s.pc else s.pc + 2) ∧
      OnlyChanges [.pc] s t)

/-- 41_conditional_skip.md (R92, R93; the ignored nibble is the spec's decision D17): the skips on two registers, for
every low nibble of the word. -/
def Obligations.RegisterSkips : Prop :=
  ∀ (x y : Reg) (n : Fin 16) (s : State),
    decode (wordXYN 0x5000 x y n) = .ok (.seReg x y) ∧ decode (wordXYN 0x9000 x y n) = .ok (.sneReg x y) ∧
    (∃ t, exec (.seReg x y) s = .next t ∧ t.pc = (if (s.reg x).toNat = (s.reg y).toNat then s.pc + 2 else s.pc) ∧
      OnlyChanges [.pc] s t) ∧
    (∃ t, exec (.sneReg x y) s = .next t ∧ t.pc = (if (s.reg x).toNat = (s.reg y).toNat then s.pc else s.pc + 2) ∧
      OnlyChanges [.pc] s t)

/-! ## Register load and arithmetic -/

/-- R100, R101: load and add an immediate; the addition wraps modulo 256 and never writes `VF` (unless `X` = 15). -/
def Obligations.ImmediateLoadAndAdd : Prop :=
  ∀ (x : Reg) (nn : Byte) (s : State),
    decode (wordXB 0x6000 x nn) = .ok (.ldImm x nn) ∧ decode (wordXB 0x7000 x nn) = .ok (.addImm x nn) ∧
    (∃ t, exec (.ldImm x nn) s = .next t ∧ t.reg x = nn ∧ OnlyChanges [.reg x] s t) ∧
    (∃ t, exec (.addImm x nn) s = .next t ∧ (t.reg x).toNat = ((s.reg x).toNat + nn.toNat) % 256 ∧
      OnlyChanges [.reg x] s t)

/-- 42_register_alu.md (R102 to R105; that or, and, exclusive or leave `VF` alone is log 19, the point U17 on which the
source lists no flag): copy, or, and, exclusive or, bit by bit; `VF` is not written (unless `X` = 15). -/
def Obligations.CopyAndLogic : Prop :=
  ∀ (x y : Reg) (s : State),
    decode (wordXYN 0x8000 x y 0) = .ok (.ldReg x y) ∧ decode (wordXYN 0x8001 x y 0) = .ok (.orReg x y) ∧
    decode (wordXYN 0x8002 x y 0) = .ok (.andReg x y) ∧ decode (wordXYN 0x8003 x y 0) = .ok (.xorReg x y) ∧
    (∃ t, exec (.ldReg x y) s = .next t ∧ t.reg x = s.reg y ∧ OnlyChanges [.reg x] s t) ∧
    (∃ t, exec (.orReg x y) s = .next t ∧ OnlyChanges [.reg x] s t ∧
      ∀ b, b < 8 → (t.reg x).getLsbD b = ((s.reg x).getLsbD b || (s.reg y).getLsbD b)) ∧
    (∃ t, exec (.andReg x y) s = .next t ∧ OnlyChanges [.reg x] s t ∧
      ∀ b, b < 8 → (t.reg x).getLsbD b = ((s.reg x).getLsbD b && (s.reg y).getLsbD b)) ∧
    (∃ t, exec (.xorReg x y) s = .next t ∧ OnlyChanges [.reg x] s t ∧
      ∀ b, b < 8 → (t.reg x).getLsbD b = ((s.reg x).getLsbD b != (s.reg y).getLsbD b))

/-- 42_register_alu.md (R106; the order of result and flag is the spec's decision D16, rule R111, log 23): addition with
carry out, on the registers' values on entry; the carry is written last, so with `X` = 15 it is what remains. -/
def Obligations.AddSetsCarry : Prop :=
  ∀ (x y : Reg) (s : State), decode (wordXYN 0x8004 x y 0) = .ok (.addReg x y) ∧
    ∃ t, exec (.addReg x y) s = .next t ∧
      (x ≠ VF → (t.reg x).toNat = ((s.reg x).toNat + (s.reg y).toNat) % 256) ∧
      (t.reg VF).toNat = (if 255 < (s.reg x).toNat + (s.reg y).toNat then 1 else 0) ∧
      OnlyChanges [.reg x, .reg VF] s t

/-- 42_register_alu.md (R107, R109; the order of result and flag is the spec's decision D16, rule R111, log 23): both
subtractions, modulo 256, with `VF` = 1 exactly when no borrow occurs, on the values on entry; the flag is written last,
so with `X` = 15 it is what remains. -/
def Obligations.SubtractionsSetNotBorrow : Prop :=
  ∀ (x y : Reg) (s : State),
    decode (wordXYN 0x8005 x y 0) = .ok (.sub x y) ∧ decode (wordXYN 0x8007 x y 0) = .ok (.subn x y) ∧
    (∃ t, exec (.sub x y) s = .next t ∧
      (x ≠ VF → ((t.reg x).toNat : Int) = (((s.reg x).toNat : Int) - (s.reg y).toNat) % 256) ∧
      (t.reg VF).toNat = (if (s.reg x).toNat < (s.reg y).toNat then 0 else 1) ∧
      OnlyChanges [.reg x, .reg VF] s t) ∧
    (∃ t, exec (.subn x y) s = .next t ∧
      (x ≠ VF → ((t.reg x).toNat : Int) = (((s.reg y).toNat : Int) - (s.reg x).toNat) % 256) ∧
      (t.reg VF).toNat = (if (s.reg y).toNat < (s.reg x).toNat then 0 else 1) ∧
      OnlyChanges [.reg x, .reg VF] s t)

/-- 42_register_alu.md (R108, R110; the toggle is the spec's decision D6, log 6; the order of result and flag is D16,
rule R111, log 23): both shifts by one, of `V[Y]` or, when
`SHIFT_USES_VY` is false, of `V[X]`; `VF` is the bit shifted out, written last, so
with `X` = 15 it is what remains. -/
def Obligations.ShiftsByOne : Prop :=
  ∀ (x y : Reg) (s : State),
    decode (wordXYN 0x8006 x y 0) = .ok (.shr x y) ∧ decode (wordXYN 0x800E x y 0) = .ok (.shl x y) ∧
    ∀ src, src = (if s.cfg.shiftUsesVy = true then (s.reg y).toNat else (s.reg x).toNat) →
      (∃ t, exec (.shr x y) s = .next t ∧ (x ≠ VF → (t.reg x).toNat = src / 2) ∧ (t.reg VF).toNat = src % 2 ∧
        OnlyChanges [.reg x, .reg VF] s t) ∧
      (∃ t, exec (.shl x y) s = .next t ∧ (x ≠ VF → (t.reg x).toNat = src * 2 % 256) ∧ (t.reg VF).toNat = src / 128 ∧
        OnlyChanges [.reg x, .reg VF] s t)

/-! ## Index register and random -/

/-- R120, R123: `LD I, addr` and `LD F, Vx`; the glyph address is the base plus five times the whole byte, in a
well-configured machine never wrapped. -/
def Obligations.IndexLoads : Prop :=
  ∀ (x : Reg) (nnn : BitVec 12) (s : State),
    decode (wordA 0xA000 nnn) = .ok (.ldI nnn) ∧ decode (wordXB 0xF000 x 0x29) = .ok (.ldF x) ∧
    (∃ t, exec (.ldI nnn) s = .next t ∧ t.index.toNat = nnn.toNat ∧ OnlyChanges [.index] s t) ∧
    (∃ t, exec (.ldF x) s = .next t ∧ OnlyChanges [.index] s t ∧
      (s.cfg.wellFormed = true → t.index.toNat = s.cfg.fontBase + (s.reg x).toNat * 5))

/-- 43_index_and_random.md (R121, the spec's decision D27; log 5): `RND` writes the step's random byte masked by the
immediate, for every random byte the host may supply. -/
def Obligations.RandomIsMasked : Prop :=
  ∀ (x : Reg) (nn r : Byte) (keys : BitVec 16) (q : List Input) (s : State),
    decode (wordXB 0xC000 x nn) = .ok (.rnd x nn) ∧
    (∃ t, exec (.rnd x nn) s = .next t ∧ t.reg x &&& ~~~nn = 0 ∧ OnlyChanges [.reg x] s t) ∧
    (s.inputs = ⟨keys, r⟩ :: q → ∃ t, exec (.rnd x nn) s = .next t ∧ t.reg x = r &&& nn)

/-- 43_index_and_random.md (R122; the wrap past 65535 is the spec's decision D14): `ADD I, Vx` adds without reducing to
12 bits; `VF` becomes 1 when the unwrapped sum exceeds 0x0FFF and is otherwise left exactly as it was. -/
def Obligations.AddToIndexSetsOnly : Prop :=
  ∀ (x : Reg) (s : State), decode (wordXB 0xF000 x 0x1E) = .ok (.addI x) ∧
    ∃ t, exec (.addI x) s = .next t ∧ t.index.toNat = (s.index.toNat + (s.reg x).toNat) % 65536 ∧
      (0x0FFF < s.index.toNat + (s.reg x).toNat → t.reg VF = 1) ∧
      (s.index.toNat + (s.reg x).toNat ≤ 0x0FFF → t.reg VF = s.reg VF) ∧
      OnlyChanges [.index, .reg VF] s t

/-! ## Display -/

/-- 44_display.md (R131; that bits 11:8 are ignored is the spec's decision D17, rule R65, log 14): `CLS` turns off all
2048 pixels and writes nothing else, whatever bits 11:8 of its word. -/
def Obligations.ClearTurnsAllPixelsOff : Prop :=
  (∀ x : Fin 16, decode (wordXB 0x0000 x 0xE0) = .ok .cls) ∧
  ∀ s : State, ∃ t, exec .cls s = .next t ∧ (∀ x y, pixel t.disp x y = false) ∧ OnlyChanges [.disp] s t

/-- 44_display.md (R132, the equivalent statement; clipping, reading all rows and the order of reads and writes are the
spec's decisions D7, D8 and D16, log 9 and 23; that `I` is not moved is D15, log 18; that a raise writes nothing is D18,
log 12): the toggling procedure amounts to an exclusive or of every pixel with the sprite's bit there; `VF` is 1 exactly
when a sprite bit met a pixel that was on; nothing else changes, `I` included. With a row out of memory it raises and
writes nothing. -/
def Obligations.DrawIsXorWithCollision : Prop :=
  ∀ (x y : Reg) (n : Fin 16) (s : State), decode (wordXYN 0xD000 x y n) = .ok (.drw x y n.val) ∧
    (n.val = 0 ∨ s.index.toNat + n.val ≤ 4096 → ∃ t, exec (.drw x y n.val) s = .next t ∧
      (∀ px py, pixel t.disp px py = (pixel s.disp px py != spriteBitAt s x y n.val px py)) ∧
      ((∃ px py, pixel s.disp px py = true ∧ spriteBitAt s x y n.val px py = true) → t.reg VF = 1) ∧
      ((∀ px py, pixel s.disp px py = true → spriteBitAt s x y n.val px py = false) → t.reg VF = 0) ∧
      OnlyChanges [.disp, .reg VF] s t) ∧
    (n.val ≠ 0 → 4096 < s.index.toNat + n.val → exec (.drw x y n.val) s = .next { s with
      fault := ⟨.outOfRange, .mem, BitVec.ofNat 16 (max s.index.toNat 4096)⟩ })

/-- 95_test_vectors.md S5 (R132): drawing the same sprite twice restores every pixel, and the second draw reports a
collision exactly when some sprite bit lies on a pixel that was off before the first. -/
def Obligations.DrawTwiceRestores : Prop :=
  ∀ (x y : Reg) (n : Nat) (s : State), x ≠ VF → y ≠ VF → n = 0 ∨ s.index.toNat + n ≤ 4096 →
    ∃ t u, exec (.drw x y n) s = .next t ∧ exec (.drw x y n) t = .next u ∧
      (∀ px py, pixel u.disp px py = pixel s.disp px py) ∧
      (u.reg VF = 1 ↔ ∃ px py, pixel s.disp px py = false ∧ spriteBitAt s x y n px py = true)

/-! ## Keypad and timers -/

/-- 45_keypad.md (R140, R141; the fault above 15 is the spec's decision D12, log 15; that a raise writes
nothing else is D18, log 12): the key skips follow the snapshot's bit of
key `V[X]`; a number above 15 raises `OutOfRange(KEY, V[X])` and writes nothing. -/
def Obligations.KeySkips : Prop :=
  ∀ (x : Reg) (s : State),
    decode (wordXB 0xE000 x 0x9E) = .ok (.skp x) ∧ decode (wordXB 0xE000 x 0xA1) = .ok (.sknp x) ∧
    ((s.reg x).toNat ≤ 15 →
      (∃ t, exec (.skp x) s = .next t ∧ OnlyChanges [.pc] s t ∧
        t.pc = (if s.input.keys.getLsbD (s.reg x).toNat = true then s.pc + 2 else s.pc)) ∧
      (∃ t, exec (.sknp x) s = .next t ∧ OnlyChanges [.pc] s t ∧
        t.pc = (if s.input.keys.getLsbD (s.reg x).toNat = true then s.pc else s.pc + 2))) ∧
    (15 < (s.reg x).toNat →
      exec (.skp x) s = .next { s with fault := ⟨.outOfRange, .key, BitVec.ofNat 16 (s.reg x).toNat⟩ } ∧
      exec (.sknp x) s = .next { s with fault := ⟨.outOfRange, .key, BitVec.ofNat 16 (s.reg x).toNat⟩ })

/-- 45_keypad.md (R142; the wait, and the choice among several keys, are the spec's decisions D9 and D11, log 4):
with no key pressed `pc` goes back by 2 and nothing else changes; with a key pressed a pressed key's number is stored,
with the default `KEY_SELECT` the lowest. -/
def Obligations.KeyWaitInstruction : Prop :=
  ∀ (x : Reg) (s : State), decode (wordXB 0xF000 x 0x0A) = .ok (.ldVxK x) ∧
    (s.input.keys = 0 → ∃ t, exec (.ldVxK x) s = .next t ∧ t.pc = s.pc - 2 ∧ OnlyChanges [.pc] s t) ∧
    (s.input.keys ≠ 0 → ∃ t, ∃ k : Fin 16, exec (.ldVxK x) s = .next t ∧ (t.reg x).toNat = k.val ∧
      s.input.keys.getLsbD k.val = true ∧ OnlyChanges [.reg x] s t ∧
      (s.cfg.keySelect = [] → ∀ j, j < k.val → s.input.keys.getLsbD j = false))

/-- 45_keypad.md (R142, decisions D9, D10): while the snapshots of `k` steps show no key, a waiting instruction stands
still for `k` steps with the timers running down; the first snapshot with a key completes it. -/
def Obligations.KeyWaitStandsStill : Prop :=
  ∀ (k : Nat) (x : Reg) (w : Word) (s : State) (e : Input), s.fault.code = .none → fetch s = .ok w →
    decode w = .ok (.ldVxK x) → (∀ j, j < k → ∃ d, s.inputs[j]? = some d ∧ d.keys = 0) →
    s.inputs[k]? = some e → e.keys ≠ 0 →
    (∃ t, Host.Core.run Sys2Proof.core k s = .next t ∧ t.dt.toNat = s.dt.toNat - k ∧ t.st.toNat = s.st.toNat - k ∧
      t = { s with dt := t.dt, st := t.st, inputs := s.inputs.drop k, freeIx := s.freeIx + k }) ∧
    ∃ u, Host.Core.run Sys2Proof.core (k + 1) s = .next u ∧ u.pc = s.pc + 2 ∧
      (u.reg x).toNat < 16 ∧ e.keys.getLsbD (u.reg x).toNat = true

/-- 00_scope.md section 4 (R2; the table form is log 4): whatever function `KEY_SELECT` is, a configuration holds it. -/
def Obligations.EveryKeySelectIsATable : Prop :=
  ∀ f : BitVec 16 → Fin 16, (∀ keys : BitVec 16, keys ≠ 0 → keys.getLsbD (f keys).val = true) →
    ∃ table, ∀ (c : Config) (keys : BitVec 16), keys ≠ 0 →
      selectKey { c with keySelect := table } keys = some (f keys)

/-- 46_timers.md (R150 to R152): the three timer instructions at the point where they execute, before the step's tick
(which `TimersTickOncePerStep` states). -/
def Obligations.TimerInstructions : Prop :=
  ∀ (x : Reg) (s : State),
    decode (wordXB 0xF000 x 0x07) = .ok (.ldVxDt x) ∧ decode (wordXB 0xF000 x 0x15) = .ok (.ldDtVx x) ∧
    decode (wordXB 0xF000 x 0x18) = .ok (.ldStVx x) ∧
    (∃ t, exec (.ldVxDt x) s = .next t ∧ t.reg x = s.dt ∧ OnlyChanges [.reg x] s t) ∧
    (∃ t, exec (.ldDtVx x) s = .next t ∧ t.dt = s.reg x ∧ OnlyChanges [.dt] s t) ∧
    (∃ t, exec (.ldStVx x) s = .next t ∧ t.st = s.reg x ∧ OnlyChanges [.st] s t)

/-! ## Memory transfer -/

/-- 47_memory_transfer.md (R160; `I` unmoved and no partial write are the spec's decisions D15, D18): the three decimal
digits at `I`, `I + 1`, `I + 2`, which multiply out to the register; out of memory it raises and writes nothing. -/
def Obligations.BcdDigitsMultiplyOut : Prop :=
  ∀ (x : Reg) (s : State), decode (wordXB 0xF000 x 0x33) = .ok (.ldB x) ∧
    (Memory.wf s.cfg s.mem → s.index.toNat + 2 ≤ 4095 → ∃ t, ∃ h d o : Byte, exec (.ldB x) s = .next t ∧
      t.memRead s.index.toNat = some h ∧ t.memRead (s.index.toNat + 1) = some d ∧
      t.memRead (s.index.toNat + 2) = some o ∧ h.toNat ≤ 2 ∧ d.toNat ≤ 9 ∧ o.toNat ≤ 9 ∧
      100 * h.toNat + 10 * d.toNat + o.toNat = (s.reg x).toNat ∧
      MemKeptOutside s.index.toNat 3 s t ∧ OnlyChanges [.mem] s t) ∧
    (4095 < s.index.toNat + 2 → exec (.ldB x) s = .next { s with
      fault := ⟨.outOfRange, .mem, BitVec.ofNat 16 (max s.index.toNat 4096)⟩ })

/-- 47_memory_transfer.md (R161, decisions D15, D18): `V[0]` to `V[X]` inclusive at `I` upward, every other byte as
before; out of memory it raises and writes nothing. -/
def Obligations.StoreRegistersInclusive : Prop :=
  ∀ (x : Reg) (s : State), decode (wordXB 0xF000 x 0x55) = .ok (.stRegs x) ∧
    (Memory.wf s.cfg s.mem → s.index.toNat + x.val ≤ 4095 → ∃ t, exec (.stRegs x) s = .next t ∧
      (∀ j : Reg, j ≤ x → t.memRead (s.index.toNat + j.val) = some (s.reg j)) ∧
      MemKeptOutside s.index.toNat (x.val + 1) s t ∧ OnlyChanges [.mem] s t) ∧
    (4095 < s.index.toNat + x.val → exec (.stRegs x) s = .next { s with
      fault := ⟨.outOfRange, .mem, BitVec.ofNat 16 (max s.index.toNat 4096)⟩ })

/-- 47_memory_transfer.md (R162, decisions D15, D18): `V[0]` to `V[X]` inclusive from `I` upward, nothing else changed,
memory included; out of memory it raises and writes nothing. -/
def Obligations.LoadRegistersInclusive : Prop :=
  ∀ (x : Reg) (s : State), decode (wordXB 0xF000 x 0x65) = .ok (.ldRegs x) ∧
    (s.index.toNat + x.val ≤ 4095 → ∃ t, exec (.ldRegs x) s = .next t ∧
      (∀ j : Reg, j ≤ x → s.memRead (s.index.toNat + j.val) = some (t.reg j)) ∧
      OnlyChanges (partsUpTo x) s t) ∧
    (4095 < s.index.toNat + x.val → exec (.ldRegs x) s = .next { s with
      fault := ⟨.outOfRange, .mem, BitVec.ofNat 16 (max s.index.toNat 4096)⟩ })

/-- 95_test_vectors.md S7 (R161, R162): storing the registers and loading them back from the same `I`, whatever happened
to the registers in between, restores `V[0]` to `V[X]`. -/
def Obligations.DumpThenLoadRestores : Prop :=
  ∀ (x : Reg) (s u : State), Memory.wf s.cfg s.mem → s.index.toNat + x.val ≤ 4095 →
    ∃ t, exec (.stRegs x) s = .next t ∧
      (u.cfg = t.cfg → u.mem = t.mem → u.index = t.index →
        ∃ r, exec (.ldRegs x) u = .next r ∧ ∀ j : Reg, j ≤ x → r.reg j = s.reg j)

/-- 20_memory.md section 5 (R51, the spec's decision D29): two registers stored next to each other are the very next
word fetched from there. -/
def Obligations.StoreIsSeenByFetch : Prop :=
  ∀ (x j k : Reg) (s : State), Memory.wf s.cfg s.mem → s.index.toNat + x.val ≤ 4095 → k.val = j.val + 1 → k ≤ x →
    ∃ t w, exec (.stRegs x) s = .next t ∧
      fetch { t with pc := BitVec.ofNat 16 (s.index.toNat + j.val) } = .ok w ∧
      w.toNat = (s.reg j).toNat * 256 + (s.reg k).toNat

/-- Memory in canonical form is determined by what its addresses read as, so equal memories are equal data (model, log
7). -/
def Obligations.CanonicalMemoryIsUnique : Prop :=
  ∀ (c : Config) (m m' : Memory), Memory.wf c m → Memory.wf c m' →
    (∀ a, a < 4096 → Memory.read c m a = Memory.read c m' a) → m = m'

/-! ## What cannot be observed, and the end of a run -/

/-- 10_state.md section 3 (R18): no instruction can read the sound timer. Two states that differ only in `ST` step to
states that differ at most in `ST`. -/
def Obligations.SoundTimerIsUnreadable : Prop :=
  ∀ (s t : State) (z : Byte), step s = .next t → ∃ t', step { s with st := z } = .next t' ∧ t = { t' with st := t.st }

/-- 10_state.md section 3 (R16): entries of the call stack at or above `SP` are unobservable. Two states that differ
only there step to states that differ at most there. -/
def Obligations.PoppedEntriesAreUnreadable : Prop :=
  ∀ (s t : State) (stk : List Word), stk.length = s.stack.length → (∀ k, k < s.sp → stk[k]? = s.stack[k]?) →
    step s = .next t → ∃ t', step { s with stack := stk } = .next t' ∧ t = { t' with stack := t.stack } ∧
      t'.stack.length = t.stack.length ∧ ∀ k, k < t.sp → t'.stack[k]? = t.stack[k]?

/-- 10_state.md section 5 (R26, R27, the spec's decision D1): a step whose instruction is not `RND` ignores the random
byte, and one whose instruction is none of `SKP`, `SKNP` and `LD Vx, K` ignores the keys. -/
def Obligations.InputsReadOnlyByTheirInstructions : Prop :=
  ∀ (s : State) (w : Word) (i : Instr) (k k' : BitVec 16) (r r' : Byte) (q : List Input), s.fault.code = .none →
    fetch s = .ok w → decode w = .ok i →
    ((∀ x nn, i ≠ .rnd x nn) →
      step { s with inputs := ⟨k, r⟩ :: q } = step { s with inputs := ⟨k, r'⟩ :: q }) ∧
    ((∀ x, i ≠ .skp x ∧ i ≠ .sknp x ∧ i ≠ .ldVxK x) →
      step { s with inputs := ⟨k, r⟩ :: q } = step { s with inputs := ⟨k', r⟩ :: q })

/-- 70_reset_and_hazards.md section 4 (R213, the spec's decision D26): a jump to its own address stands still for any
number of steps; only the timers run down, and the inputs are used up. -/
def Obligations.JumpToSelfStandsStill : Prop :=
  ∀ (k : Nat) (s : State), s.fault.code = .none → s.pc.toNat ≤ 4094 →
    fetch s = .ok (BitVec.ofNat 16 (0x1000 + s.pc.toNat)) →
    ∃ t, Host.Core.run Sys2Proof.core k s = .next t ∧ t.dt.toNat = s.dt.toNat - k ∧ t.st.toNat = s.st.toNat - k ∧
      t = { s with dt := t.dt, st := t.st, inputs := s.inputs.drop k, freeIx := s.freeIx + k }

/-- 10_state.md section 5 (R28, R29; the operand widths are the spec's decision D25, log 22; the latch numbers are
D19, rule R171, log 12): the pixel port shows the pixel of `DISP` in that row and column; the wider read shows the
same inside the grid and refuses what lies outside; `SOUND` is 1 exactly while `ST` is not 0; and these are the
numbers the host reads for the codes and spaces of the latch. -/
def Obligations.HostPortsReadState : Prop :=
  (∀ (s : State) (px : BitVec 6) (py : BitVec 5),
    s.pixelPort px py = (s.disp[py.toNat]'(by omega))[px.toNat]'(by omega)) ∧
  (∀ (s : State) (x y : Nat) (hx : x < 64) (hy : y < 32), s.readPixel x y = some (s.disp[y])[x]) ∧
  (∀ (s : State) (x y : Nat), s.readPixel x y = none ↔ 64 ≤ x ∨ 32 ≤ y) ∧
  (∀ s : State, s.soundOut = true ↔ s.st.toNat ≠ 0) ∧
  FaultCode.none.bits = 0#3 ∧ FaultCode.outOfRange.bits = 1#3 ∧ FaultCode.stackUnderflow.bits = 2#3 ∧
  FaultCode.stackOverflow.bits = 3#3 ∧ FaultCode.unknownInstruction.bits = 4#3 ∧ FaultCode.romTooLarge.bits = 5#3 ∧
  FaultSpace.mem.bits = 0#2 ∧ FaultSpace.display.bits = 1#2 ∧ FaultSpace.key.bits = 2#2

/-- 10_state.md section 5 and 70_reset_and_hazards.md section 4 (R26, R27, R215, decision D1; the halted core is R175,
decision D18, log 12): a call of `Step(KEYS, RAND)` always answers, and keeps no copy of its inputs. On a halted core
it changes nothing at all, so no later step and no reset can show them. On a running core it is the step that samples
them. -/
def Obligations.HostStepKeepsNoInput : Prop :=
  ∀ (keys : BitVec 16) (rand : Byte) (s : State), ∃ t, stepWith keys rand s = .next t ∧ t.inputs = s.inputs ∧
    (s.fault.code ≠ .none → t = s) ∧
    (s.fault.code = .none → step { s with inputs := ⟨keys, rand⟩ :: s.inputs } = .next t)
end

