-- ==== Sys2Proof/Laws/Decode.lean ====
section
/-! SUPPORT. The fields of a word as numbers, the encoders' words as numbers, and what each encoder's fields are. -/

namespace Sys2Proof

/-! ### Fields as numbers -/

theorem opField_toNat (w : Word) : (opField w).toNat = w.toNat / 4096 := by
  have := w.isLt
  simp only [opField, BitVec.extractLsb'_toNat, Nat.shiftRight_eq_div_pow]; omega

theorem xField_val (w : Word) : (xField w).val = w.toNat / 256 % 16 := by
  show (w.extractLsb' 8 4).toNat = _
  simp [BitVec.extractLsb'_toNat, Nat.shiftRight_eq_div_pow]

theorem yField_val (w : Word) : (yField w).val = w.toNat / 16 % 16 := by
  show (w.extractLsb' 4 4).toNat = _
  simp [BitVec.extractLsb'_toNat, Nat.shiftRight_eq_div_pow]

theorem nField_toNat (w : Word) : (nField w).toNat = w.toNat % 16 := by
  simp [nField, BitVec.extractLsb'_toNat]

theorem nnField_toNat (w : Word) : (nnField w).toNat = w.toNat % 256 := by
  simp [nnField, BitVec.extractLsb'_toNat]

theorem nnnField_toNat (w : Word) : (nnnField w).toNat = w.toNat % 4096 := by
  simp [nnnField, BitVec.extractLsb'_toNat]

/-! ### Encoded words as numbers -/

theorem append_toNat {m n : Nat} (a : BitVec m) (b : BitVec n) : (a ++ b).toNat = a.toNat * 2 ^ n + b.toNat := by
  rw [BitVec.toNat_append, ← Nat.shiftLeft_add_eq_or_of_lt b.isLt, Nat.shiftLeft_eq]

theorem encodeA_toNat (op : BitVec 4) (nnn : BitVec 12) : (encodeA op nnn).toNat = op.toNat * 4096 + nnn.toNat := by
  exact append_toNat op nnn

theorem encodeXB_toNat (op : BitVec 4) (x : Reg) (b : Byte) :
    (encodeXB op x b).toNat = op.toNat * 4096 + x.val * 256 + b.toNat := by
  have := x.isLt
  have h := append_toNat (op ++ BitVec.ofNat 4 x.val) b
  have h' := append_toNat op (BitVec.ofNat 4 x.val)
  rw [BitVec.toNat_ofNat] at h'
  exact h.trans (by omega)

theorem encodeXYN_toNat (op : BitVec 4) (x y : Reg) (n : BitVec 4) :
    (encodeXYN op x y n).toNat = op.toNat * 4096 + x.val * 256 + y.val * 16 + n.toNat := by
  have := x.isLt; have := y.isLt
  have h := append_toNat ((op ++ BitVec.ofNat 4 x.val) ++ BitVec.ofNat 4 y.val) n
  have h' := append_toNat (op ++ BitVec.ofNat 4 x.val) (BitVec.ofNat 4 y.val)
  have h'' := append_toNat op (BitVec.ofNat 4 x.val)
  rw [BitVec.toNat_ofNat] at h' h''
  exact h.trans (by omega)

/-! ### The fields of an encoded word -/

@[simp] theorem opField_encodeA (op : BitVec 4) (nnn : BitVec 12) : opField (encodeA op nnn) = op := by
  have := op.isLt; have := nnn.isLt
  apply BitVec.eq_of_toNat_eq; rw [opField_toNat, encodeA_toNat]; omega

@[simp] theorem nnnField_encodeA (op : BitVec 4) (nnn : BitVec 12) : nnnField (encodeA op nnn) = nnn := by
  have := nnn.isLt
  apply BitVec.eq_of_toNat_eq; rw [nnnField_toNat, encodeA_toNat]; omega

@[simp] theorem opField_encodeXB (op : BitVec 4) (x : Reg) (b : Byte) : opField (encodeXB op x b) = op := by
  have := x.isLt; have := b.isLt; have := op.isLt
  apply BitVec.eq_of_toNat_eq; rw [opField_toNat, encodeXB_toNat]; omega

@[simp] theorem xField_encodeXB (op : BitVec 4) (x : Reg) (b : Byte) : xField (encodeXB op x b) = x := by
  have := x.isLt; have := b.isLt
  apply Fin.ext; rw [xField_val, encodeXB_toNat]; omega

@[simp] theorem nnField_encodeXB (op : BitVec 4) (x : Reg) (b : Byte) : nnField (encodeXB op x b) = b := by
  have := b.isLt
  apply BitVec.eq_of_toNat_eq; rw [nnField_toNat, encodeXB_toNat]; omega

@[simp] theorem opField_encodeXYN (op : BitVec 4) (x y : Reg) (n : BitVec 4) : opField (encodeXYN op x y n) = op := by
  have := x.isLt; have := y.isLt; have := n.isLt; have := op.isLt
  apply BitVec.eq_of_toNat_eq; rw [opField_toNat, encodeXYN_toNat]; omega

@[simp] theorem xField_encodeXYN (op : BitVec 4) (x y : Reg) (n : BitVec 4) : xField (encodeXYN op x y n) = x := by
  have := x.isLt; have := y.isLt; have := n.isLt
  apply Fin.ext; rw [xField_val, encodeXYN_toNat]; omega

@[simp] theorem yField_encodeXYN (op : BitVec 4) (x y : Reg) (n : BitVec 4) : yField (encodeXYN op x y n) = y := by
  have := y.isLt; have := n.isLt
  apply Fin.ext; rw [yField_val, encodeXYN_toNat]; omega

@[simp] theorem nField_encodeXYN (op : BitVec 4) (x y : Reg) (n : BitVec 4) : nField (encodeXYN op x y n) = n := by
  have := n.isLt
  apply BitVec.eq_of_toNat_eq; rw [nField_toNat, encodeXYN_toNat]; omega

/-! ### A word is what its fields say -/

theorem encodeA_fields (w : Word) : encodeA (opField w) (nnnField w) = w := by
  have := w.isLt
  apply BitVec.eq_of_toNat_eq; rw [encodeA_toNat, opField_toNat, nnnField_toNat]; omega

theorem encodeXB_fields (w : Word) : encodeXB (opField w) (xField w) (nnField w) = w := by
  have := w.isLt
  apply BitVec.eq_of_toNat_eq; rw [encodeXB_toNat, opField_toNat, xField_val, nnField_toNat]; omega

theorem encodeXYN_fields (w : Word) : encodeXYN (opField w) (xField w) (yField w) (nField w) = w := by
  have := w.isLt
  apply BitVec.eq_of_toNat_eq; rw [encodeXYN_toNat, opField_toNat, xField_val, yField_val, nField_toNat]; omega

/-! ### The masks of the opcode map -/

theorem getLsbD_encodeXB (op : BitVec 4) (x : Reg) (b : Byte) (i : Nat) : (encodeXB op x b).getLsbD i =
    if i < 8 then b.getLsbD i else if i < 12 then (BitVec.ofNat 4 x.val).getLsbD (i - 8) else op.getLsbD (i - 12) := by
  have h := BitVec.getLsbD_append (x := op ++ BitVec.ofNat 4 x.val) (y := b) (i := i)
  have h' := BitVec.getLsbD_append (x := op) (y := BitVec.ofNat 4 x.val) (i := i - 8)
  refine h.trans ?_
  rw [h']
  by_cases h1 : i < 8
  · simp [h1]
  · by_cases h2 : i < 12
    · have : i - 8 < 4 := by omega
      simp [h1, h2, this]
    · have : ¬ i - 8 < 4 := by omega
      have e : i - 8 - 4 = i - 12 := by omega
      simp [h1, h2, this, e]

theorem encodeXYN_eq (op : BitVec 4) (x y : Reg) (n : BitVec 4) :
    encodeXYN op x y n = encodeXB op x (BitVec.ofNat 8 (y.val * 16 + n.toNat)) := by
  have := y.isLt; have := n.isLt
  apply BitVec.eq_of_toNat_eq
  rw [encodeXYN_toNat, encodeXB_toNat, BitVec.toNat_ofNat]; omega

/-- The mask of formats `A`, `XI`, `XY` and `XYN` keeps the leading nibble. -/
theorem and_F000 (w : Word) : w &&& 0xF000#16 = encodeXB (opField w) 0 0#8 := by
  apply BitVec.eq_of_getLsbD_eq; intro i hi
  rw [getLsbD_encodeXB]
  interval_cases i <;> simp [opField]

/-- The mask of formats `Z` and `XF` keeps the leading nibble and the low byte. -/
theorem and_F0FF (w : Word) : w &&& 0xF0FF#16 = encodeXB (opField w) 0 (nnField w) := by
  apply BitVec.eq_of_getLsbD_eq; intro i hi
  rw [getLsbD_encodeXB]
  interval_cases i <;> simp [opField, nnField]

/-- The mask of format `XYF` keeps the leading and the low nibble. -/
theorem and_F00F (w : Word) : w &&& 0xF00F#16 = encodeXYN (opField w) 0 0 (nField w) := by
  have hn : BitVec.ofNat 8 ((0 : Reg).val * 16 + (nField w).toNat) = (nField w).setWidth 8 := by
    have := (nField w).isLt
    apply BitVec.eq_of_toNat_eq; simp
  rw [encodeXYN_eq, hn]
  apply BitVec.eq_of_getLsbD_eq; intro i hi
  rw [getLsbD_encodeXB]
  interval_cases i <;> simp [opField, nField]

theorem and_F000_eq_iff (w : Word) (op : BitVec 4) : w &&& 0xF000#16 = encodeXB op 0 0#8 ↔ opField w = op := by
  rw [and_F000]
  exact ⟨fun h => by simpa using congrArg opField h, fun h => by rw [h]⟩

theorem and_F0FF_eq_iff (w : Word) (op : BitVec 4) (b : Byte) :
    w &&& 0xF0FF#16 = encodeXB op 0 b ↔ opField w = op ∧ nnField w = b := by
  rw [and_F0FF]
  exact ⟨fun h => ⟨by simpa using congrArg opField h, by simpa using congrArg nnField h⟩, fun h => by rw [h.1, h.2]⟩

theorem and_F00F_eq_iff (w : Word) (op n : BitVec 4) :
    w &&& 0xF00F#16 = encodeXYN op 0 0 n ↔ opField w = op ∧ nField w = n := by
  rw [and_F00F]
  exact ⟨fun h => ⟨by simpa using congrArg opField h, by simpa using congrArg nField h⟩, fun h => by rw [h.1, h.2]⟩

end Sys2Proof
end

