-- ==== Sys2Proof/Laws/State.lean ====
section
/-! SUPPORT. One lemma per field per update of the state, each true by definition, and what the register reads give after
a register write. -/

namespace Sys2Proof.Machine

section
variable (s : State)

@[simp] theorem State.setReg_cfg (r : Reg) (b : Byte) : (s.setReg r b).cfg = s.cfg := rfl
@[simp] theorem State.setReg_v (r : Reg) (b : Byte) : (s.setReg r b).v = s.v.set r.val b := rfl
@[simp] theorem State.setReg_index (r : Reg) (b : Byte) : (s.setReg r b).index = s.index := rfl
@[simp] theorem State.setReg_pc (r : Reg) (b : Byte) : (s.setReg r b).pc = s.pc := rfl
@[simp] theorem State.setReg_stack (r : Reg) (b : Byte) : (s.setReg r b).stack = s.stack := rfl
@[simp] theorem State.setReg_sp (r : Reg) (b : Byte) : (s.setReg r b).sp = s.sp := rfl
@[simp] theorem State.setReg_dt (r : Reg) (b : Byte) : (s.setReg r b).dt = s.dt := rfl
@[simp] theorem State.setReg_st (r : Reg) (b : Byte) : (s.setReg r b).st = s.st := rfl
@[simp] theorem State.setReg_fault (r : Reg) (b : Byte) : (s.setReg r b).fault = s.fault := rfl
@[simp] theorem State.setReg_mem (r : Reg) (b : Byte) : (s.setReg r b).mem = s.mem := rfl
@[simp] theorem State.setReg_disp (r : Reg) (b : Byte) : (s.setReg r b).disp = s.disp := rfl
@[simp] theorem State.setReg_inputs (r : Reg) (b : Byte) : (s.setReg r b).inputs = s.inputs := rfl
@[simp] theorem State.setReg_freeIx (r : Reg) (b : Byte) : (s.setReg r b).freeIx = s.freeIx := rfl

@[simp] theorem State.setIndex_cfg (w : Word) : (s.setIndex w).cfg = s.cfg := rfl
@[simp] theorem State.setIndex_v (w : Word) : (s.setIndex w).v = s.v := rfl
@[simp] theorem State.setIndex_index (w : Word) : (s.setIndex w).index = w := rfl
@[simp] theorem State.setIndex_pc (w : Word) : (s.setIndex w).pc = s.pc := rfl
@[simp] theorem State.setIndex_stack (w : Word) : (s.setIndex w).stack = s.stack := rfl
@[simp] theorem State.setIndex_sp (w : Word) : (s.setIndex w).sp = s.sp := rfl
@[simp] theorem State.setIndex_dt (w : Word) : (s.setIndex w).dt = s.dt := rfl
@[simp] theorem State.setIndex_st (w : Word) : (s.setIndex w).st = s.st := rfl
@[simp] theorem State.setIndex_fault (w : Word) : (s.setIndex w).fault = s.fault := rfl
@[simp] theorem State.setIndex_mem (w : Word) : (s.setIndex w).mem = s.mem := rfl
@[simp] theorem State.setIndex_disp (w : Word) : (s.setIndex w).disp = s.disp := rfl
@[simp] theorem State.setIndex_inputs (w : Word) : (s.setIndex w).inputs = s.inputs := rfl
@[simp] theorem State.setIndex_freeIx (w : Word) : (s.setIndex w).freeIx = s.freeIx := rfl

@[simp] theorem State.setPc_cfg (w : Word) : (s.setPc w).cfg = s.cfg := rfl
@[simp] theorem State.setPc_v (w : Word) : (s.setPc w).v = s.v := rfl
@[simp] theorem State.setPc_index (w : Word) : (s.setPc w).index = s.index := rfl
@[simp] theorem State.setPc_pc (w : Word) : (s.setPc w).pc = w := rfl
@[simp] theorem State.setPc_stack (w : Word) : (s.setPc w).stack = s.stack := rfl
@[simp] theorem State.setPc_sp (w : Word) : (s.setPc w).sp = s.sp := rfl
@[simp] theorem State.setPc_dt (w : Word) : (s.setPc w).dt = s.dt := rfl
@[simp] theorem State.setPc_st (w : Word) : (s.setPc w).st = s.st := rfl
@[simp] theorem State.setPc_fault (w : Word) : (s.setPc w).fault = s.fault := rfl
@[simp] theorem State.setPc_mem (w : Word) : (s.setPc w).mem = s.mem := rfl
@[simp] theorem State.setPc_disp (w : Word) : (s.setPc w).disp = s.disp := rfl
@[simp] theorem State.setPc_inputs (w : Word) : (s.setPc w).inputs = s.inputs := rfl
@[simp] theorem State.setPc_freeIx (w : Word) : (s.setPc w).freeIx = s.freeIx := rfl

@[simp] theorem State.advancePc_cfg : s.advancePc.cfg = s.cfg := rfl
@[simp] theorem State.advancePc_v : s.advancePc.v = s.v := rfl
@[simp] theorem State.advancePc_index : s.advancePc.index = s.index := rfl
@[simp] theorem State.advancePc_pc : s.advancePc.pc = s.pc + 2 := rfl
@[simp] theorem State.advancePc_stack : s.advancePc.stack = s.stack := rfl
@[simp] theorem State.advancePc_sp : s.advancePc.sp = s.sp := rfl
@[simp] theorem State.advancePc_dt : s.advancePc.dt = s.dt := rfl
@[simp] theorem State.advancePc_st : s.advancePc.st = s.st := rfl
@[simp] theorem State.advancePc_fault : s.advancePc.fault = s.fault := rfl
@[simp] theorem State.advancePc_mem : s.advancePc.mem = s.mem := rfl
@[simp] theorem State.advancePc_disp : s.advancePc.disp = s.disp := rfl
@[simp] theorem State.advancePc_inputs : s.advancePc.inputs = s.inputs := rfl
@[simp] theorem State.advancePc_freeIx : s.advancePc.freeIx = s.freeIx := rfl

@[simp] theorem State.setDt_cfg (b : Byte) : (s.setDt b).cfg = s.cfg := rfl
@[simp] theorem State.setDt_v (b : Byte) : (s.setDt b).v = s.v := rfl
@[simp] theorem State.setDt_index (b : Byte) : (s.setDt b).index = s.index := rfl
@[simp] theorem State.setDt_pc (b : Byte) : (s.setDt b).pc = s.pc := rfl
@[simp] theorem State.setDt_stack (b : Byte) : (s.setDt b).stack = s.stack := rfl
@[simp] theorem State.setDt_sp (b : Byte) : (s.setDt b).sp = s.sp := rfl
@[simp] theorem State.setDt_dt (b : Byte) : (s.setDt b).dt = b := rfl
@[simp] theorem State.setDt_st (b : Byte) : (s.setDt b).st = s.st := rfl
@[simp] theorem State.setDt_fault (b : Byte) : (s.setDt b).fault = s.fault := rfl
@[simp] theorem State.setDt_mem (b : Byte) : (s.setDt b).mem = s.mem := rfl
@[simp] theorem State.setDt_disp (b : Byte) : (s.setDt b).disp = s.disp := rfl
@[simp] theorem State.setDt_inputs (b : Byte) : (s.setDt b).inputs = s.inputs := rfl
@[simp] theorem State.setDt_freeIx (b : Byte) : (s.setDt b).freeIx = s.freeIx := rfl

@[simp] theorem State.setSt_cfg (b : Byte) : (s.setSt b).cfg = s.cfg := rfl
@[simp] theorem State.setSt_v (b : Byte) : (s.setSt b).v = s.v := rfl
@[simp] theorem State.setSt_index (b : Byte) : (s.setSt b).index = s.index := rfl
@[simp] theorem State.setSt_pc (b : Byte) : (s.setSt b).pc = s.pc := rfl
@[simp] theorem State.setSt_stack (b : Byte) : (s.setSt b).stack = s.stack := rfl
@[simp] theorem State.setSt_sp (b : Byte) : (s.setSt b).sp = s.sp := rfl
@[simp] theorem State.setSt_dt (b : Byte) : (s.setSt b).dt = s.dt := rfl
@[simp] theorem State.setSt_st (b : Byte) : (s.setSt b).st = b := rfl
@[simp] theorem State.setSt_fault (b : Byte) : (s.setSt b).fault = s.fault := rfl
@[simp] theorem State.setSt_mem (b : Byte) : (s.setSt b).mem = s.mem := rfl
@[simp] theorem State.setSt_disp (b : Byte) : (s.setSt b).disp = s.disp := rfl
@[simp] theorem State.setSt_inputs (b : Byte) : (s.setSt b).inputs = s.inputs := rfl
@[simp] theorem State.setSt_freeIx (b : Byte) : (s.setSt b).freeIx = s.freeIx := rfl

@[simp] theorem State.setDisp_cfg (d : Display) : (s.setDisp d).cfg = s.cfg := rfl
@[simp] theorem State.setDisp_v (d : Display) : (s.setDisp d).v = s.v := rfl
@[simp] theorem State.setDisp_index (d : Display) : (s.setDisp d).index = s.index := rfl
@[simp] theorem State.setDisp_pc (d : Display) : (s.setDisp d).pc = s.pc := rfl
@[simp] theorem State.setDisp_stack (d : Display) : (s.setDisp d).stack = s.stack := rfl
@[simp] theorem State.setDisp_sp (d : Display) : (s.setDisp d).sp = s.sp := rfl
@[simp] theorem State.setDisp_dt (d : Display) : (s.setDisp d).dt = s.dt := rfl
@[simp] theorem State.setDisp_st (d : Display) : (s.setDisp d).st = s.st := rfl
@[simp] theorem State.setDisp_fault (d : Display) : (s.setDisp d).fault = s.fault := rfl
@[simp] theorem State.setDisp_mem (d : Display) : (s.setDisp d).mem = s.mem := rfl
@[simp] theorem State.setDisp_disp (d : Display) : (s.setDisp d).disp = d := rfl
@[simp] theorem State.setDisp_inputs (d : Display) : (s.setDisp d).inputs = s.inputs := rfl
@[simp] theorem State.setDisp_freeIx (d : Display) : (s.setDisp d).freeIx = s.freeIx := rfl

@[simp] theorem State.push_cfg (w : Word) : (s.push w).cfg = s.cfg := rfl
@[simp] theorem State.push_v (w : Word) : (s.push w).v = s.v := rfl
@[simp] theorem State.push_index (w : Word) : (s.push w).index = s.index := rfl
@[simp] theorem State.push_pc (w : Word) : (s.push w).pc = s.pc := rfl
@[simp] theorem State.push_stack (w : Word) : (s.push w).stack = s.stack.set s.sp w := rfl
@[simp] theorem State.push_sp (w : Word) : (s.push w).sp = s.sp + 1 := rfl
@[simp] theorem State.push_dt (w : Word) : (s.push w).dt = s.dt := rfl
@[simp] theorem State.push_st (w : Word) : (s.push w).st = s.st := rfl
@[simp] theorem State.push_fault (w : Word) : (s.push w).fault = s.fault := rfl
@[simp] theorem State.push_mem (w : Word) : (s.push w).mem = s.mem := rfl
@[simp] theorem State.push_disp (w : Word) : (s.push w).disp = s.disp := rfl
@[simp] theorem State.push_inputs (w : Word) : (s.push w).inputs = s.inputs := rfl
@[simp] theorem State.push_freeIx (w : Word) : (s.push w).freeIx = s.freeIx := rfl

@[simp] theorem State.popToPc_cfg : s.popToPc.cfg = s.cfg := rfl
@[simp] theorem State.popToPc_v : s.popToPc.v = s.v := rfl
@[simp] theorem State.popToPc_index : s.popToPc.index = s.index := rfl
@[simp] theorem State.popToPc_pc : s.popToPc.pc = s.stackAt (s.sp - 1) := rfl
@[simp] theorem State.popToPc_stack : s.popToPc.stack = s.stack := rfl
@[simp] theorem State.popToPc_sp : s.popToPc.sp = s.sp - 1 := rfl
@[simp] theorem State.popToPc_dt : s.popToPc.dt = s.dt := rfl
@[simp] theorem State.popToPc_st : s.popToPc.st = s.st := rfl
@[simp] theorem State.popToPc_fault : s.popToPc.fault = s.fault := rfl
@[simp] theorem State.popToPc_mem : s.popToPc.mem = s.mem := rfl
@[simp] theorem State.popToPc_disp : s.popToPc.disp = s.disp := rfl
@[simp] theorem State.popToPc_inputs : s.popToPc.inputs = s.inputs := rfl
@[simp] theorem State.popToPc_freeIx : s.popToPc.freeIx = s.freeIx := rfl

@[simp] theorem State.storeBlock_cfg (a : Nat) (bs : List Byte) : (s.storeBlock a bs).cfg = s.cfg := rfl
@[simp] theorem State.storeBlock_v (a : Nat) (bs : List Byte) : (s.storeBlock a bs).v = s.v := rfl
@[simp] theorem State.storeBlock_index (a : Nat) (bs : List Byte) : (s.storeBlock a bs).index = s.index := rfl
@[simp] theorem State.storeBlock_pc (a : Nat) (bs : List Byte) : (s.storeBlock a bs).pc = s.pc := rfl
@[simp] theorem State.storeBlock_stack (a : Nat) (bs : List Byte) : (s.storeBlock a bs).stack = s.stack := rfl
@[simp] theorem State.storeBlock_sp (a : Nat) (bs : List Byte) : (s.storeBlock a bs).sp = s.sp := rfl
@[simp] theorem State.storeBlock_dt (a : Nat) (bs : List Byte) : (s.storeBlock a bs).dt = s.dt := rfl
@[simp] theorem State.storeBlock_st (a : Nat) (bs : List Byte) : (s.storeBlock a bs).st = s.st := rfl
@[simp] theorem State.storeBlock_fault (a : Nat) (bs : List Byte) : (s.storeBlock a bs).fault = s.fault := rfl
@[simp] theorem State.storeBlock_mem (a : Nat) (bs : List Byte) : (s.storeBlock a bs).mem = Memory.writeBlock s.cfg s.mem a bs := rfl
@[simp] theorem State.storeBlock_disp (a : Nat) (bs : List Byte) : (s.storeBlock a bs).disp = s.disp := rfl
@[simp] theorem State.storeBlock_inputs (a : Nat) (bs : List Byte) : (s.storeBlock a bs).inputs = s.inputs := rfl
@[simp] theorem State.storeBlock_freeIx (a : Nat) (bs : List Byte) : (s.storeBlock a bs).freeIx = s.freeIx := rfl

@[simp] theorem raise_cfg (c : FaultCode) (p : FaultSpace) (n : Nat) : (raise c p n s).cfg = s.cfg := rfl
@[simp] theorem raise_v (c : FaultCode) (p : FaultSpace) (n : Nat) : (raise c p n s).v = s.v := rfl
@[simp] theorem raise_index (c : FaultCode) (p : FaultSpace) (n : Nat) : (raise c p n s).index = s.index := rfl
@[simp] theorem raise_pc (c : FaultCode) (p : FaultSpace) (n : Nat) : (raise c p n s).pc = s.pc := rfl
@[simp] theorem raise_stack (c : FaultCode) (p : FaultSpace) (n : Nat) : (raise c p n s).stack = s.stack := rfl
@[simp] theorem raise_sp (c : FaultCode) (p : FaultSpace) (n : Nat) : (raise c p n s).sp = s.sp := rfl
@[simp] theorem raise_dt (c : FaultCode) (p : FaultSpace) (n : Nat) : (raise c p n s).dt = s.dt := rfl
@[simp] theorem raise_st (c : FaultCode) (p : FaultSpace) (n : Nat) : (raise c p n s).st = s.st := rfl
@[simp] theorem raise_fault (c : FaultCode) (p : FaultSpace) (n : Nat) : (raise c p n s).fault = ⟨c, p, BitVec.ofNat 16 n⟩ := rfl
@[simp] theorem raise_mem (c : FaultCode) (p : FaultSpace) (n : Nat) : (raise c p n s).mem = s.mem := rfl
@[simp] theorem raise_disp (c : FaultCode) (p : FaultSpace) (n : Nat) : (raise c p n s).disp = s.disp := rfl
@[simp] theorem raise_inputs (c : FaultCode) (p : FaultSpace) (n : Nat) : (raise c p n s).inputs = s.inputs := rfl
@[simp] theorem raise_freeIx (c : FaultCode) (p : FaultSpace) (n : Nat) : (raise c p n s).freeIx = s.freeIx := rfl

@[simp] theorem State.timerTick_cfg : s.timerTick.cfg = s.cfg := rfl
@[simp] theorem State.timerTick_v : s.timerTick.v = s.v := rfl
@[simp] theorem State.timerTick_index : s.timerTick.index = s.index := rfl
@[simp] theorem State.timerTick_pc : s.timerTick.pc = s.pc := rfl
@[simp] theorem State.timerTick_stack : s.timerTick.stack = s.stack := rfl
@[simp] theorem State.timerTick_sp : s.timerTick.sp = s.sp := rfl
@[simp] theorem State.timerTick_dt : s.timerTick.dt = tickDown s.dt := rfl
@[simp] theorem State.timerTick_st : s.timerTick.st = tickDown s.st := rfl
@[simp] theorem State.timerTick_fault : s.timerTick.fault = s.fault := rfl
@[simp] theorem State.timerTick_mem : s.timerTick.mem = s.mem := rfl
@[simp] theorem State.timerTick_disp : s.timerTick.disp = s.disp := rfl
@[simp] theorem State.timerTick_inputs : s.timerTick.inputs = s.inputs := rfl
@[simp] theorem State.timerTick_freeIx : s.timerTick.freeIx = s.freeIx := rfl

@[simp] theorem State.consumeInput_cfg : s.consumeInput.cfg = s.cfg := rfl
@[simp] theorem State.consumeInput_v : s.consumeInput.v = s.v := rfl
@[simp] theorem State.consumeInput_index : s.consumeInput.index = s.index := rfl
@[simp] theorem State.consumeInput_pc : s.consumeInput.pc = s.pc := rfl
@[simp] theorem State.consumeInput_stack : s.consumeInput.stack = s.stack := rfl
@[simp] theorem State.consumeInput_sp : s.consumeInput.sp = s.sp := rfl
@[simp] theorem State.consumeInput_dt : s.consumeInput.dt = s.dt := rfl
@[simp] theorem State.consumeInput_st : s.consumeInput.st = s.st := rfl
@[simp] theorem State.consumeInput_fault : s.consumeInput.fault = s.fault := rfl
@[simp] theorem State.consumeInput_mem : s.consumeInput.mem = s.mem := rfl
@[simp] theorem State.consumeInput_disp : s.consumeInput.disp = s.disp := rfl
@[simp] theorem State.consumeInput_inputs : s.consumeInput.inputs = s.inputs.tail := rfl
@[simp] theorem State.consumeInput_freeIx : s.consumeInput.freeIx = s.freeIx + 1 := rfl

@[simp] theorem State.offerInput_cfg (k : BitVec 16) (r : Byte) : (s.offerInput k r).cfg = s.cfg := by
  unfold State.offerInput; split <;> rfl
@[simp] theorem State.offerInput_v (k : BitVec 16) (r : Byte) : (s.offerInput k r).v = s.v := by
  unfold State.offerInput; split <;> rfl
@[simp] theorem State.offerInput_index (k : BitVec 16) (r : Byte) : (s.offerInput k r).index = s.index := by
  unfold State.offerInput; split <;> rfl
@[simp] theorem State.offerInput_pc (k : BitVec 16) (r : Byte) : (s.offerInput k r).pc = s.pc := by
  unfold State.offerInput; split <;> rfl
@[simp] theorem State.offerInput_stack (k : BitVec 16) (r : Byte) : (s.offerInput k r).stack = s.stack := by
  unfold State.offerInput; split <;> rfl
@[simp] theorem State.offerInput_sp (k : BitVec 16) (r : Byte) : (s.offerInput k r).sp = s.sp := by
  unfold State.offerInput; split <;> rfl
@[simp] theorem State.offerInput_dt (k : BitVec 16) (r : Byte) : (s.offerInput k r).dt = s.dt := by
  unfold State.offerInput; split <;> rfl
@[simp] theorem State.offerInput_st (k : BitVec 16) (r : Byte) : (s.offerInput k r).st = s.st := by
  unfold State.offerInput; split <;> rfl
@[simp] theorem State.offerInput_fault (k : BitVec 16) (r : Byte) : (s.offerInput k r).fault = s.fault := by
  unfold State.offerInput; split <;> rfl
@[simp] theorem State.offerInput_mem (k : BitVec 16) (r : Byte) : (s.offerInput k r).mem = s.mem := by
  unfold State.offerInput; split <;> rfl
@[simp] theorem State.offerInput_disp (k : BitVec 16) (r : Byte) : (s.offerInput k r).disp = s.disp := by
  unfold State.offerInput; split <;> rfl
@[simp] theorem State.offerInput_freeIx (k : BitVec 16) (r : Byte) : (s.offerInput k r).freeIx = s.freeIx := by
  unfold State.offerInput; split <;> rfl
@[simp] theorem State.offerInput_inputs (k : BitVec 16) (r : Byte) :
    (s.offerInput k r).inputs = if s.halted then s.inputs else ⟨k, r⟩ :: s.inputs := by
  unfold State.offerInput; split <;> rfl

@[simp] theorem State.loadRegsUpTo_v (x : Reg) : (s.loadRegsUpTo x).v =
    Vector.ofFn (fun j : Fin 16 => if j ≤ x then s.byteAt (s.indexed j.val) else s.reg j) := rfl
@[simp] theorem State.loadRegsUpTo_cfg (x : Reg) : (s.loadRegsUpTo x).cfg = s.cfg := rfl
@[simp] theorem State.loadRegsUpTo_index (x : Reg) : (s.loadRegsUpTo x).index = s.index := rfl
@[simp] theorem State.loadRegsUpTo_pc (x : Reg) : (s.loadRegsUpTo x).pc = s.pc := rfl
@[simp] theorem State.loadRegsUpTo_stack (x : Reg) : (s.loadRegsUpTo x).stack = s.stack := rfl
@[simp] theorem State.loadRegsUpTo_sp (x : Reg) : (s.loadRegsUpTo x).sp = s.sp := rfl
@[simp] theorem State.loadRegsUpTo_dt (x : Reg) : (s.loadRegsUpTo x).dt = s.dt := rfl
@[simp] theorem State.loadRegsUpTo_st (x : Reg) : (s.loadRegsUpTo x).st = s.st := rfl
@[simp] theorem State.loadRegsUpTo_fault (x : Reg) : (s.loadRegsUpTo x).fault = s.fault := rfl
@[simp] theorem State.loadRegsUpTo_mem (x : Reg) : (s.loadRegsUpTo x).mem = s.mem := rfl
@[simp] theorem State.loadRegsUpTo_disp (x : Reg) : (s.loadRegsUpTo x).disp = s.disp := rfl
@[simp] theorem State.loadRegsUpTo_inputs (x : Reg) : (s.loadRegsUpTo x).inputs = s.inputs := rfl
@[simp] theorem State.loadRegsUpTo_freeIx (x : Reg) : (s.loadRegsUpTo x).freeIx = s.freeIx := rfl

/-! ### Reading registers after an update -/

@[simp] theorem State.reg_setReg_self (r : Reg) (b : Byte) : (s.setReg r b).reg r = b := by
  simp [State.reg]

@[simp] theorem State.reg_setReg_ne {r q : Reg} (b : Byte) (h : r ≠ q) : (s.setReg q b).reg r = s.reg r := by
  have : q.val ≠ r.val := fun e => h (Fin.ext e.symm)
  simp [State.reg, this]

theorem State.reg_setReg (r q : Reg) (b : Byte) : (s.setReg q b).reg r = if r = q then b else s.reg r := by
  by_cases h : r = q
  · subst h; simp
  · simp [h]

@[simp] theorem State.reg_loadRegsUpTo (x r : Reg) :
    (s.loadRegsUpTo x).reg r = if r ≤ x then s.byteAt (s.indexed r.val) else s.reg r := by
  simp [State.reg]

@[simp] theorem State.byteAt_setReg (r : Reg) (b : Byte) (a : Nat) : (s.setReg r b).byteAt a = s.byteAt a := rfl
@[simp] theorem State.memRead_setReg (r : Reg) (b : Byte) (a : Nat) : (s.setReg r b).memRead a = s.memRead a := rfl
@[simp] theorem State.halted_setReg (r : Reg) (b : Byte) : (s.setReg r b).halted = s.halted := rfl
@[simp] theorem State.input_setReg (r : Reg) (b : Byte) : (s.setReg r b).input = s.input := rfl
@[simp] theorem State.reg_setIndex (w : Word) (r : Reg) : (s.setIndex w).reg r = s.reg r := rfl
@[simp] theorem State.byteAt_setIndex (w : Word) (a : Nat) : (s.setIndex w).byteAt a = s.byteAt a := rfl
@[simp] theorem State.memRead_setIndex (w : Word) (a : Nat) : (s.setIndex w).memRead a = s.memRead a := rfl
@[simp] theorem State.halted_setIndex (w : Word) : (s.setIndex w).halted = s.halted := rfl
@[simp] theorem State.input_setIndex (w : Word) : (s.setIndex w).input = s.input := rfl
@[simp] theorem State.reg_setPc (w : Word) (r : Reg) : (s.setPc w).reg r = s.reg r := rfl
@[simp] theorem State.byteAt_setPc (w : Word) (a : Nat) : (s.setPc w).byteAt a = s.byteAt a := rfl
@[simp] theorem State.memRead_setPc (w : Word) (a : Nat) : (s.setPc w).memRead a = s.memRead a := rfl
@[simp] theorem State.halted_setPc (w : Word) : (s.setPc w).halted = s.halted := rfl
@[simp] theorem State.input_setPc (w : Word) : (s.setPc w).input = s.input := rfl
@[simp] theorem State.reg_advancePc (r : Reg) : s.advancePc.reg r = s.reg r := rfl
@[simp] theorem State.byteAt_advancePc (a : Nat) : s.advancePc.byteAt a = s.byteAt a := rfl
@[simp] theorem State.memRead_advancePc (a : Nat) : s.advancePc.memRead a = s.memRead a := rfl
@[simp] theorem State.halted_advancePc : s.advancePc.halted = s.halted := rfl
@[simp] theorem State.input_advancePc : s.advancePc.input = s.input := rfl
@[simp] theorem State.reg_setDt (b : Byte) (r : Reg) : (s.setDt b).reg r = s.reg r := rfl
@[simp] theorem State.byteAt_setDt (b : Byte) (a : Nat) : (s.setDt b).byteAt a = s.byteAt a := rfl
@[simp] theorem State.memRead_setDt (b : Byte) (a : Nat) : (s.setDt b).memRead a = s.memRead a := rfl
@[simp] theorem State.halted_setDt (b : Byte) : (s.setDt b).halted = s.halted := rfl
@[simp] theorem State.input_setDt (b : Byte) : (s.setDt b).input = s.input := rfl
@[simp] theorem State.reg_setSt (b : Byte) (r : Reg) : (s.setSt b).reg r = s.reg r := rfl
@[simp] theorem State.byteAt_setSt (b : Byte) (a : Nat) : (s.setSt b).byteAt a = s.byteAt a := rfl
@[simp] theorem State.memRead_setSt (b : Byte) (a : Nat) : (s.setSt b).memRead a = s.memRead a := rfl
@[simp] theorem State.halted_setSt (b : Byte) : (s.setSt b).halted = s.halted := rfl
@[simp] theorem State.input_setSt (b : Byte) : (s.setSt b).input = s.input := rfl
@[simp] theorem State.reg_setDisp (d : Display) (r : Reg) : (s.setDisp d).reg r = s.reg r := rfl
@[simp] theorem State.byteAt_setDisp (d : Display) (a : Nat) : (s.setDisp d).byteAt a = s.byteAt a := rfl
@[simp] theorem State.memRead_setDisp (d : Display) (a : Nat) : (s.setDisp d).memRead a = s.memRead a := rfl
@[simp] theorem State.halted_setDisp (d : Display) : (s.setDisp d).halted = s.halted := rfl
@[simp] theorem State.input_setDisp (d : Display) : (s.setDisp d).input = s.input := rfl
@[simp] theorem State.reg_push (w : Word) (r : Reg) : (s.push w).reg r = s.reg r := rfl
@[simp] theorem State.byteAt_push (w : Word) (a : Nat) : (s.push w).byteAt a = s.byteAt a := rfl
@[simp] theorem State.memRead_push (w : Word) (a : Nat) : (s.push w).memRead a = s.memRead a := rfl
@[simp] theorem State.halted_push (w : Word) : (s.push w).halted = s.halted := rfl
@[simp] theorem State.input_push (w : Word) : (s.push w).input = s.input := rfl
@[simp] theorem State.reg_popToPc (r : Reg) : s.popToPc.reg r = s.reg r := rfl
@[simp] theorem State.byteAt_popToPc (a : Nat) : s.popToPc.byteAt a = s.byteAt a := rfl
@[simp] theorem State.memRead_popToPc (a : Nat) : s.popToPc.memRead a = s.memRead a := rfl
@[simp] theorem State.halted_popToPc : s.popToPc.halted = s.halted := rfl
@[simp] theorem State.input_popToPc : s.popToPc.input = s.input := rfl
@[simp] theorem State.reg_storeBlock (a : Nat) (bs : List Byte) (r : Reg) : (s.storeBlock a bs).reg r = s.reg r := rfl
@[simp] theorem State.halted_storeBlock (a : Nat) (bs : List Byte) : (s.storeBlock a bs).halted = s.halted := rfl
@[simp] theorem State.input_storeBlock (a : Nat) (bs : List Byte) : (s.storeBlock a bs).input = s.input := rfl
@[simp] theorem State.reg_raise (c : FaultCode) (p : FaultSpace) (n : Nat) (r : Reg) : (raise c p n s).reg r = s.reg r := rfl
@[simp] theorem State.byteAt_raise (c : FaultCode) (p : FaultSpace) (n : Nat) (a : Nat) : (raise c p n s).byteAt a = s.byteAt a := rfl
@[simp] theorem State.memRead_raise (c : FaultCode) (p : FaultSpace) (n : Nat) (a : Nat) : (raise c p n s).memRead a = s.memRead a := rfl
@[simp] theorem State.input_raise (c : FaultCode) (p : FaultSpace) (n : Nat) : (raise c p n s).input = s.input := rfl
@[simp] theorem State.reg_timerTick (r : Reg) : s.timerTick.reg r = s.reg r := rfl
@[simp] theorem State.byteAt_timerTick (a : Nat) : s.timerTick.byteAt a = s.byteAt a := rfl
@[simp] theorem State.memRead_timerTick (a : Nat) : s.timerTick.memRead a = s.memRead a := rfl
@[simp] theorem State.halted_timerTick : s.timerTick.halted = s.halted := rfl
@[simp] theorem State.input_timerTick : s.timerTick.input = s.input := rfl
@[simp] theorem State.reg_consumeInput (r : Reg) : s.consumeInput.reg r = s.reg r := rfl
@[simp] theorem State.byteAt_consumeInput (a : Nat) : s.consumeInput.byteAt a = s.byteAt a := rfl
@[simp] theorem State.memRead_consumeInput (a : Nat) : s.consumeInput.memRead a = s.memRead a := rfl
@[simp] theorem State.halted_offerInput (k : BitVec 16) (r : Byte) : (s.offerInput k r).halted = s.halted := by
  simp [State.halted]
@[simp] theorem State.halted_consumeInput : s.consumeInput.halted = s.halted := rfl
@[simp] theorem State.memRead_loadRegsUpTo (x : Reg) (a : Nat) : (s.loadRegsUpTo x).memRead a = s.memRead a := rfl
@[simp] theorem State.halted_loadRegsUpTo (x : Reg) : (s.loadRegsUpTo x).halted = s.halted := rfl
@[simp] theorem State.halted_raise (c : FaultCode) (p : FaultSpace) (n : Nat) :
    (raise c p n s).halted = (c != .none) := rfl

end

end Sys2Proof.Machine
end

