-- ==== Sys2Proof/Laws/Memory.lean ====
section
/-! SUPPORT. The laws of memory: reading after writing, and the canonical form, which every operation keeps. -/

namespace Sys2Proof.Machine

/-! ### Listed bytes -/

@[simp] theorem Memory.lookup_insert (m : Memory) (a b : Nat) (v : Byte) :
    Memory.lookup (Memory.insert m a v) b = if a = b then some v else Memory.lookup m b := by
  induction m with
  | nil => simp [Memory.insert, Memory.lookup]
  | cons p m ih =>
    obtain ⟨c, u⟩ := p
    unfold Memory.insert
    split
    · simp [Memory.lookup]
    · split
      · rename_i h; subst h; simp only [Memory.lookup]; split <;> rfl
      · rename_i h
        simp only [Memory.lookup, ih]
        by_cases hb : c = b
        · subst hb; simp [h]
        · simp [hb]

theorem Memory.lookup_eq_none_of_lt {m : Memory} {a : Nat} (h : ∀ p ∈ m, a < p.1) : Memory.lookup m a = none := by
  induction m with
  | nil => rfl
  | cons p m ih =>
    have hp := h p (by simp)
    simp only [Memory.lookup, if_neg (Nat.ne_of_gt hp)]
    exact ih fun q hq => h q (by simp [hq])

theorem Memory.lookup_erase {m : Memory} (hs : m.Pairwise fun p q => p.1 < q.1) (a b : Nat) :
    Memory.lookup (Memory.erase m a) b = if a = b then none else Memory.lookup m b := by
  induction m with
  | nil => simp [Memory.erase, Memory.lookup]
  | cons p m ih =>
    obtain ⟨c, u⟩ := p
    rw [List.pairwise_cons] at hs
    unfold Memory.erase
    by_cases hc : c = a
    · subst hc
      by_cases hb : c = b
      · subst hb; simpa using Memory.lookup_eq_none_of_lt hs.1
      · simp [Memory.lookup, hb]
    · simp only [if_neg hc, Memory.lookup, ih hs.2]
      by_cases hb : c = b
      · subst hb; simp [Ne.symm hc]
      · simp [hb]

/-- Taking an entry out leaves the entries at other addresses, in any list. -/
theorem Memory.lookup_erase_ne (m : Memory) {a b : Nat} (h : a ≠ b) :
    Memory.lookup (Memory.erase m a) b = Memory.lookup m b := by
  induction m with
  | nil => rfl
  | cons p m ih =>
    obtain ⟨c, u⟩ := p
    unfold Memory.erase
    split
    · rename_i hc; subst hc; simp [Memory.lookup, h]
    · simp only [Memory.lookup, ih]

theorem Memory.mem_insert {m : Memory} {a : Nat} {v : Byte} {p : Host.Cell} (h : p ∈ Memory.insert m a v) :
    p = (a, v) ∨ p ∈ m := by
  induction m with
  | nil => simpa [Memory.insert] using h
  | cons q m ih =>
    obtain ⟨c, u⟩ := q
    unfold Memory.insert at h
    split at h
    · simpa using h
    · split at h
      · simp only [List.mem_cons] at h ⊢; tauto
      · simp only [List.mem_cons] at h ⊢
        rcases h with h | h
        · tauto
        · rcases ih h with h | h <;> tauto

theorem Memory.mem_of_mem_erase {m : Memory} {a : Nat} {p : Host.Cell} (h : p ∈ Memory.erase m a) : p ∈ m := by
  induction m with
  | nil => simp [Memory.erase] at h
  | cons q m ih =>
    obtain ⟨c, u⟩ := q
    unfold Memory.erase at h
    split at h
    · simp [h]
    · simp only [List.mem_cons] at h ⊢; tauto

theorem Memory.insert_sorted {m : Memory} (hs : m.Pairwise fun p q => p.1 < q.1) (a : Nat) (v : Byte) :
    (Memory.insert m a v).Pairwise fun p q => p.1 < q.1 := by
  induction m with
  | nil => simp [Memory.insert]
  | cons q m ih =>
    obtain ⟨c, u⟩ := q
    have hs' := List.pairwise_cons.1 hs
    unfold Memory.insert
    split
    · rename_i h
      refine List.pairwise_cons.2 ⟨fun p hp => ?_, hs⟩
      rcases List.mem_cons.1 hp with rfl | hp
      · exact h
      · exact Nat.lt_trans h (hs'.1 p hp)
    · split
      · rename_i h; subst h; exact List.pairwise_cons.2 hs'
      · refine List.pairwise_cons.2 ⟨fun p hp => ?_, ih hs'.2⟩
        rcases Memory.mem_insert hp with rfl | hp
        · simp only; omega
        · exact hs'.1 p hp

theorem Memory.erase_sorted {m : Memory} (hs : m.Pairwise fun p q => p.1 < q.1) (a : Nat) :
    (Memory.erase m a).Pairwise fun p q => p.1 < q.1 := by
  induction m with
  | nil => simp [Memory.erase]
  | cons q m ih =>
    obtain ⟨c, u⟩ := q
    have hs' := List.pairwise_cons.1 hs
    unfold Memory.erase
    split
    · exact hs'.2
    · exact List.pairwise_cons.2 ⟨fun p hp => hs'.1 p (Memory.mem_of_mem_erase hp), ih hs'.2⟩

/-! ### Canonical memory -/

/-- Reading after a write: the byte written at its address, the old byte elsewhere (R42). -/
theorem Memory.read_write {c : Config} {m : Memory} (hm : Memory.wf c m) (a b : Nat) (v : Byte) :
    Memory.read c (Memory.write c m a v) b = if a = b then v else Memory.read c m b := by
  unfold Memory.read Memory.write
  by_cases hv : v = c.resetByte a
  · rw [if_pos hv, Memory.lookup_erase hm.1]
    by_cases hb : a = b
    · subst hb; simp [hv]
    · simp [hb]
  · rw [if_neg hv, Memory.lookup_insert]
    by_cases hb : a = b <;> simp [hb]

/-- A write leaves every other address as it was, in any list. -/
theorem Memory.read_write_ne (c : Config) (m : Memory) {a b : Nat} (h : a ≠ b) (v : Byte) :
    Memory.read c (Memory.write c m a v) b = Memory.read c m b := by
  unfold Memory.read Memory.write
  split
  · rw [Memory.lookup_erase_ne m h]
  · rw [Memory.lookup_insert, if_neg h]

/-- A block write leaves every address outside the block as it was, in any list. -/
theorem Memory.read_writeBlock_outside (c : Config) (bs : List Byte) (m : Memory) {a b : Nat}
    (h : ¬ (a ≤ b ∧ b < a + bs.length)) : Memory.read c (Memory.writeBlock c m a bs) b = Memory.read c m b := by
  induction bs generalizing m a with
  | nil => rfl
  | cons d bs ih =>
    simp only [List.length_cons] at h
    rw [Memory.writeBlock, ih _ (by omega), Memory.read_write_ne c m (by omega)]

/-- A write in bounds keeps the canonical form. -/
theorem Memory.write_wf {c : Config} {m : Memory} (hm : Memory.wf c m) {a : Nat} (ha : a < Config.memSize) (v : Byte) :
    Memory.wf c (Memory.write c m a v) := by
  unfold Memory.write
  split
  · exact ⟨Memory.erase_sorted hm.1 a, fun p hp => hm.2 p (Memory.mem_of_mem_erase hp)⟩
  · rename_i hv
    refine ⟨Memory.insert_sorted hm.1 a v, fun p hp => ?_⟩
    rcases Memory.mem_insert hp with rfl | hp
    · exact ⟨ha, hv⟩
    · exact hm.2 p hp

/-- A block write in bounds keeps the canonical form. -/
theorem Memory.writeBlock_wf {c : Config} (bs : List Byte) {m : Memory} (hm : Memory.wf c m) {a : Nat}
    (ha : a + bs.length ≤ Config.memSize) : Memory.wf c (Memory.writeBlock c m a bs) := by
  induction bs generalizing m a with
  | nil => exact hm
  | cons b bs ih =>
    simp only [List.length_cons] at ha
    exact ih (Memory.write_wf hm (by omega) b) (by omega)

/-- Reading after a block write in bounds: the block's byte inside, the old byte outside (R45). -/
theorem Memory.read_writeBlock {c : Config} (bs : List Byte) {m : Memory} (hm : Memory.wf c m) {a : Nat}
    (ha : a + bs.length ≤ Config.memSize) (b : Nat) :
    Memory.read c (Memory.writeBlock c m a bs) b =
      if a ≤ b ∧ b < a + bs.length then bs.getD (b - a) 0 else Memory.read c m b := by
  induction bs generalizing m a with
  | nil =>
    have : ¬ (a ≤ b ∧ b < a + ([] : List Byte).length) := by simp
    rw [if_neg this]; rfl
  | cons d bs ih =>
    simp only [List.length_cons] at ha ⊢
    simp only [Memory.writeBlock]
    rw [ih (Memory.write_wf hm (by omega) d) (by omega), Memory.read_write hm]
    by_cases hab : a = b
    · subst hab
      rw [if_neg (by omega), if_pos rfl, if_pos (by omega)]; simp
    · by_cases hin : a + 1 ≤ b ∧ b < a + 1 + bs.length
      · rw [if_pos hin, if_pos (by omega)]
        obtain ⟨k, rfl⟩ : ∃ k, b = a + 1 + k := ⟨b - (a + 1), by omega⟩
        have : a + 1 + k - a = k + 1 := by omega
        rw [this]; simp
      · rw [if_neg hin, if_neg hab, if_neg (by omega)]

/-- The memory after reset, with nothing listed, is canonical. -/
theorem Memory.nil_wf (c : Config) : Memory.wf c [] := ⟨List.Pairwise.nil, by simp⟩

theorem State.reset_mem_wf : Memory.wf State.reset.cfg State.reset.mem := Memory.nil_wf _

/-- A store in bounds keeps the state's memory canonical. -/
theorem State.storeBlock_wf {s : State} (hm : Memory.wf s.cfg s.mem) {a : Nat} {bs : List Byte}
    (ha : a + bs.length ≤ Config.memSize) : Memory.wf (s.storeBlock a bs).cfg (s.storeBlock a bs).mem :=
  Memory.writeBlock_wf bs hm ha

/-- A store leaves every byte outside it as it was, in every state. -/
theorem State.memRead_storeBlock_outside (s : State) {a b : Nat} {bs : List Byte}
    (h : ¬ (a ≤ b ∧ b < a + bs.length)) : (s.storeBlock a bs).memRead b = s.memRead b := by
  unfold State.memRead State.byteAt
  rw [State.storeBlock_cfg, State.storeBlock_mem, Memory.read_writeBlock_outside s.cfg bs s.mem h]

/-- What one byte reads as after a store in bounds. -/
theorem State.memRead_storeBlock {s : State} (hm : Memory.wf s.cfg s.mem) {a : Nat} {bs : List Byte}
    (ha : a + bs.length ≤ Config.memSize) (b : Nat) :
    (s.storeBlock a bs).memRead b = if a ≤ b ∧ b < a + bs.length then some (bs.getD (b - a) 0) else s.memRead b := by
  unfold State.memRead State.byteAt
  rw [State.storeBlock_cfg, State.storeBlock_mem, Memory.read_writeBlock bs hm ha]
  by_cases h : a ≤ b ∧ b < a + bs.length
  · rw [if_pos (by omega), if_pos h, if_pos h]
  · rw [if_neg h, if_neg h]

end Sys2Proof.Machine
end

