-- ==== Sys2Proof/Laws/Ops.lean ====
section
/-! SUPPORT. One lemma for each shared operation that says what it can do, for the provers to cite. -/

namespace Sys2Proof.Machine

/-! ### Ranges and blocks -/

theorem firstOutOfRange_eq_none {base n : Nat} : firstOutOfRange base n = none ↔ n = 0 ∨ base + n ≤ 4096 := by
  unfold firstOutOfRange; split <;> simp_all

theorem firstOutOfRange_eq_some {base n a : Nat} :
    firstOutOfRange base n = some a ↔ n ≠ 0 ∧ 4096 < base + n ∧ a = max base 4096 := by
  unfold firstOutOfRange; split <;> rename_i h
  · simp only [reduceCtorEq, false_iff]; rintro ⟨h0, h1, -⟩; rcases h with h | h
    · exact h0 h
    · exact absurd h (by simpa using h1)
  · simp only [not_or, not_le] at h
    constructor
    · intro e; exact ⟨h.1, h.2, (Option.some.inj e).symm⟩
    · rintro ⟨-, -, rfl⟩; rfl

theorem onBlock_in {base n : Nat} (e : State → State) (s : State) (h : n = 0 ∨ base + n ≤ 4096) :
    onBlock base n e s = .next (e s) := by
  simp [onBlock, firstOutOfRange_eq_none.2 h]

theorem onBlock_out {base n : Nat} (e : State → State) (s : State) (h0 : n ≠ 0) (h : 4096 < base + n) :
    onBlock base n e s = .next (raise .outOfRange .mem (max base 4096) s) := by
  simp [onBlock, firstOutOfRange_eq_some.2 ⟨h0, h, rfl⟩]

/-! ### Memory reads -/

theorem State.memRead_in (s : State) {a : Nat} (h : a < 4096) : s.memRead a = some (s.byteAt a) := if_pos h

theorem State.memRead_out (s : State) {a : Nat} (h : 4096 ≤ a) : s.memRead a = none := if_neg (Nat.not_lt.2 h)

/-! ### Skips -/

theorem State.skipIf_true (s : State) : s.skipIf true = s.advancePc := rfl

theorem State.skipIf_false (s : State) : s.skipIf false = s := rfl

theorem State.skipIf_pc (s : State) (b : Bool) : (s.skipIf b).pc = if b then s.pc + 2 else s.pc := by
  cases b <;> rfl

/-- A skip is a write of `pc`, whichever way it goes. -/
theorem State.skipIf_eq (s : State) (b : Bool) : s.skipIf b = s.setPc (if b then s.pc + 2 else s.pc) := by
  cases b <;> rfl

/-! ### Result and flag -/

theorem State.reg_setResultThenFlag (s : State) (x r : Reg) (a f : Byte) :
    (s.setResultThenFlag x a f).reg r = if r = VF then f else if r = x then a else s.reg r := by
  simp [State.setResultThenFlag, State.reg_setReg]

theorem flagByte_eq (b : Bool) : flagByte b = if b = true then 1 else 0 := by cases b <;> rfl

/-! ### Fetch -/

theorem fetch_ok {s : State} (h : s.pc.toNat ≤ 4094) :
    fetch s = .ok (wordOfBytes (s.byteAt s.pc.toNat) (s.byteAt (s.pc.toNat + 1))) := by
  simp [fetch, s.memRead_in (show s.pc.toNat < 4096 by omega), s.memRead_in (show s.pc.toNat + 1 < 4096 by omega)]

theorem fetch_error {s : State} (h : 4095 ≤ s.pc.toNat) : fetch s = .error (max s.pc.toNat 4096) := by
  by_cases h1 : s.pc.toNat = 4095
  · simp [fetch, h1, s.memRead_in (show 4095 < 4096 by omega), s.memRead_out (Nat.le_refl 4096)]
  · have : 4096 ≤ s.pc.toNat := by omega
    simp [fetch, s.memRead_out this, Nat.max_eq_left this]

/-- When a fetch succeeds, and with which word. -/
theorem fetch_eq_ok {s : State} {w : Word} : fetch s = .ok w ↔
    s.pc.toNat ≤ 4094 ∧ w = wordOfBytes (s.byteAt s.pc.toNat) (s.byteAt (s.pc.toNat + 1)) := by
  by_cases h : s.pc.toNat ≤ 4094
  · simp [fetch_ok h, h, eq_comm]
  · simp [fetch_error (show 4095 ≤ s.pc.toNat by omega), h]

theorem fetch_eq_error {s : State} {a : Nat} : fetch s = .error a ↔ 4095 ≤ s.pc.toNat ∧ a = max s.pc.toNat 4096 := by
  by_cases h : 4095 ≤ s.pc.toNat
  · simp [fetch_error h, h, eq_comm]
  · simp [fetch_ok (show s.pc.toNat ≤ 4094 by omega), h]

theorem wordOfBytes_toNat (hi lo : Byte) : (wordOfBytes hi lo).toNat = hi.toNat * 256 + lo.toNat := by
  rw [wordOfBytes, BitVec.toNat_append, ← Nat.shiftLeft_add_eq_or_of_lt (by have := lo.isLt; omega),
    Nat.shiftLeft_eq]

/-! ### Timers -/

theorem tickDown_toNat (t : Byte) : (tickDown t).toNat = t.toNat - 1 := by
  unfold tickDown
  split
  · next h => subst h; rfl
  · next h =>
    have : t.toNat ≠ 0 := fun e => h (BitVec.eq_of_toNat_eq e)
    have := t.isLt
    rw [BitVec.toNat_sub]; simp; omega

/-! ### Keys -/

theorem lowestKey_eq_none {keys : BitVec 16} : lowestKey keys = none ↔ keys = 0 := by
  simp only [lowestKey, List.find?_eq_none, List.mem_finRange, forall_const, Bool.not_eq_true]
  constructor
  · intro h; ext i hi
    have := h ⟨i, hi⟩
    simpa [BitVec.getLsbD_eq_getElem hi] using this
  · rintro rfl k; simp

theorem lowestKey_eq_some {keys : BitVec 16} {k : Fin 16} (h : lowestKey keys = some k) :
    keys.getLsbD k.val = true ∧ ∀ j : Fin 16, j < k → keys.getLsbD j.val = false := by
  refine ⟨List.find?_some (p := fun k : Fin 16 => keys.getLsbD k.val) h, fun j hj => ?_⟩
  rw [lowestKey, List.find?_eq_some_iff_getElem] at h
  obtain ⟨-, i, hi, hk, hlt⟩ := h
  have hik : i = k.val := by simpa using congrArg Fin.val hk
  have := hlt j.val (by rw [hik]; exact hj)
  simpa using this

/-- No key is selected exactly when none is pressed. -/
theorem selectKey_eq_none {c : Config} {keys : BitVec 16} : selectKey c keys = none ↔ keys = 0 := by
  unfold selectKey
  split
  · rename_i e h
    have := List.find?_some h
    simp only [reduceCtorEq, false_iff]
    rintro rfl
    simp at this
  · exact lowestKey_eq_none

/-- A selected key is pressed (R142). -/
theorem selectKey_pressed {c : Config} {keys : BitVec 16} {k : Fin 16} (h : selectKey c keys = some k) :
    keys.getLsbD k.val = true := by
  unfold selectKey at h
  split at h
  · rename_i e he
    have := List.find?_some he
    simp only [Bool.and_eq_true] at this
    cases h; exact this.2
  · exact (lowestKey_eq_some h).1

/-! ### Display -/

theorem pixel_cleared (x : Fin 64) (y : Fin 32) : pixel clearedDisplay x y = false := by
  simp [pixel, clearedDisplay]

/-- A toggle flips one pixel and no other. -/
theorem pixel_toggle (d : Display) (x x' : Fin 64) (y y' : Fin 32) :
    pixel (toggle d x y).2 x' y' = if x' = x ∧ y' = y then !pixel d x' y' else pixel d x' y' := by
  simp only [toggle, pixel, Vector.getElem_set]
  by_cases hy : y = y'
  · subst hy
    by_cases hx : x = x'
    · subst hx; simp
    · have : x.val ≠ x'.val := fun e => hx (Fin.ext e)
      simp [this, Ne.symm hx]
  · have : y.val ≠ y'.val := fun e => hy (Fin.ext e)
    simp [this, Ne.symm hy]

theorem toggle_fst (d : Display) (x : Fin 64) (y : Fin 32) : (toggle d x y).1 = pixel d x y := rfl

end Sys2Proof.Machine
end

