-- ==== Sys2Proof/Laws/Frames.lean ====
section
/-! SUPPORT. The frame of each shared operation, and how frames combine. -/

namespace Sys2Proof.Machine

theorem OnlyChanges.refl (ps : List Part) (s : State) : OnlyChanges ps s s :=
  ⟨fun p _ => by cases p <;> simp [Unchanged], rfl, rfl, rfl⟩

theorem OnlyChanges.mono {ps qs : List Part} {s t : State} (h : OnlyChanges ps s t) (hs : ∀ p ∈ ps, p ∈ qs) :
    OnlyChanges qs s t :=
  ⟨fun p hp => h.1 p fun hp' => hp (hs p hp'), h.2⟩

theorem OnlyChanges.trans {ps : List Part} {s t u : State} (h : OnlyChanges ps s t) (h' : OnlyChanges ps t u) :
    OnlyChanges ps s u := by
  refine ⟨fun p hp => ?_, h'.2.1.trans h.2.1, h'.2.2.1.trans h.2.2.1, h'.2.2.2.trans h.2.2.2⟩
  have a := h.1 p hp
  have b := h'.1 p hp
  cases p <;> simp_all [Unchanged]

theorem onlyChanges_setReg (s : State) (x : Reg) (b : Byte) : OnlyChanges [.reg x] s (s.setReg x b) := by
  refine ⟨fun p hp => ?_, rfl, rfl, rfl⟩
  cases p <;> simp_all [Unchanged]

theorem onlyChanges_setResultThenFlag (s : State) (x : Reg) (a f : Byte) :
    OnlyChanges [.reg x, .reg VF] s (s.setResultThenFlag x a f) :=
  ((onlyChanges_setReg s x a).mono (by simp)).trans ((onlyChanges_setReg _ VF f).mono (by simp))

theorem onlyChanges_setIndex (s : State) (w : Word) : OnlyChanges [.index] s (s.setIndex w) := by
  refine ⟨fun p hp => ?_, rfl, rfl, rfl⟩
  cases p <;> simp_all [Unchanged]

theorem onlyChanges_setPc (s : State) (w : Word) : OnlyChanges [.pc] s (s.setPc w) := by
  refine ⟨fun p hp => ?_, rfl, rfl, rfl⟩
  cases p <;> simp_all [Unchanged]

theorem onlyChanges_skipIf (s : State) (b : Bool) : OnlyChanges [.pc] s (s.skipIf b) := by
  rw [State.skipIf_eq]; exact onlyChanges_setPc s _

theorem onlyChanges_setDt (s : State) (b : Byte) : OnlyChanges [.dt] s (s.setDt b) := by
  refine ⟨fun p hp => ?_, rfl, rfl, rfl⟩
  cases p <;> simp_all [Unchanged]

theorem onlyChanges_setSt (s : State) (b : Byte) : OnlyChanges [.st] s (s.setSt b) := by
  refine ⟨fun p hp => ?_, rfl, rfl, rfl⟩
  cases p <;> simp_all [Unchanged]

theorem onlyChanges_setDisp (s : State) (d : Display) : OnlyChanges [.disp] s (s.setDisp d) := by
  refine ⟨fun p hp => ?_, rfl, rfl, rfl⟩
  cases p <;> simp_all [Unchanged]

theorem onlyChanges_push (s : State) (w : Word) : OnlyChanges [.stack, .sp] s (s.push w) := by
  refine ⟨fun p hp => ?_, rfl, rfl, rfl⟩
  cases p <;> simp_all [Unchanged]

theorem onlyChanges_popToPc (s : State) : OnlyChanges [.sp, .pc] s s.popToPc := by
  refine ⟨fun p hp => ?_, rfl, rfl, rfl⟩
  cases p <;> simp_all [Unchanged]

theorem onlyChanges_raise (c : FaultCode) (f : FaultSpace) (n : Nat) (s : State) :
    OnlyChanges [.fault] s (raise c f n s) := by
  refine ⟨fun p hp => ?_, rfl, rfl, rfl⟩
  cases p <;> simp_all [Unchanged]

theorem onlyChanges_storeBlock (s : State) (a : Nat) (bs : List Byte) : OnlyChanges [.mem] s (s.storeBlock a bs) := by
  refine ⟨fun p hp => ?_, rfl, rfl, rfl⟩
  cases p <;> simp_all [Unchanged]

/-- A store changes no byte outside it. -/
theorem memKeptOutside_storeBlock (s : State) (a : Nat) (bs : List Byte) :
    MemKeptOutside a bs.length s (s.storeBlock a bs) := fun _ h => State.memRead_storeBlock_outside s h

theorem mem_partsUpTo {x r : Reg} : Part.reg r ∈ partsUpTo x ↔ r ≤ x := by simp [partsUpTo]

theorem onlyChanges_loadRegsUpTo (s : State) (x : Reg) : OnlyChanges (partsUpTo x) s (s.loadRegsUpTo x) := by
  refine ⟨fun p hp => ?_, rfl, rfl, rfl⟩
  cases p with
  | reg r => simp only [Unchanged, State.reg_loadRegsUpTo, if_neg (fun h => hp (mem_partsUpTo.2 h))]
  | _ => simp [Unchanged]

end Sys2Proof.Machine
end

