-- ==== Sys2Proof/Laws/PerInstr.lean ====
section
/-! SUPPORT. One family of statements about the instructions as syntax: the canonical word of an instruction lies in the
row that spec/30_encoding.md R66 gives it, that is, its masked bits are the row's `match`. -/

namespace Sys2Proof.Laws.CanonicalWord

open Sys2Proof

/-- The `mask` and `match` columns of R66. -/
def row : Instr → Word × Word
  | .cls => (0xF0FF#16, 0x00E0#16)
  | .ret => (0xF0FF#16, 0x00EE#16)
  | .jp _ => (0xF000#16, 0x1000#16)
  | .call _ => (0xF000#16, 0x2000#16)
  | .seImm _ _ => (0xF000#16, 0x3000#16)
  | .sneImm _ _ => (0xF000#16, 0x4000#16)
  | .seReg _ _ => (0xF000#16, 0x5000#16)
  | .sneReg _ _ => (0xF000#16, 0x9000#16)
  | .ldImm _ _ => (0xF000#16, 0x6000#16)
  | .addImm _ _ => (0xF000#16, 0x7000#16)
  | .ldReg _ _ => (0xF00F#16, 0x8000#16)
  | .orReg _ _ => (0xF00F#16, 0x8001#16)
  | .andReg _ _ => (0xF00F#16, 0x8002#16)
  | .xorReg _ _ => (0xF00F#16, 0x8003#16)
  | .addReg _ _ => (0xF00F#16, 0x8004#16)
  | .sub _ _ => (0xF00F#16, 0x8005#16)
  | .subn _ _ => (0xF00F#16, 0x8007#16)
  | .shr _ _ => (0xF00F#16, 0x8006#16)
  | .shl _ _ => (0xF00F#16, 0x800E#16)
  | .ldI _ => (0xF000#16, 0xA000#16)
  | .jpV0 _ => (0xF000#16, 0xB000#16)
  | .rnd _ _ => (0xF000#16, 0xC000#16)
  | .drw _ _ _ => (0xF000#16, 0xD000#16)
  | .skp _ => (0xF0FF#16, 0xE09E#16)
  | .sknp _ => (0xF0FF#16, 0xE0A1#16)
  | .ldVxDt _ => (0xF0FF#16, 0xF007#16)
  | .ldDtVx _ => (0xF0FF#16, 0xF015#16)
  | .ldStVx _ => (0xF0FF#16, 0xF018#16)
  | .addI _ => (0xF0FF#16, 0xF01E#16)
  | .ldVxK _ => (0xF0FF#16, 0xF00A#16)
  | .ldF _ => (0xF0FF#16, 0xF029#16)
  | .ldB _ => (0xF0FF#16, 0xF033#16)
  | .stRegs _ => (0xF0FF#16, 0xF055#16)
  | .ldRegs _ => (0xF0FF#16, 0xF065#16)

/-- The canonical word's masked bits are the row's `match` (R66, R69). -/
def Statement (i : Instr) : Prop := encode i &&& (row i).1 = (row i).2

/-- Formats `A`: the mask keeps the leading nibble. -/
theorem maskA (op : BitVec 4) (nnn : BitVec 12) : encodeA op nnn &&& 0xF000#16 = encodeXB op 0 0#8 :=
  (and_F000_eq_iff _ op).2 (opField_encodeA op nnn)

/-- Formats `XI`. -/
theorem maskXI (op : BitVec 4) (x : Reg) (b : Byte) : encodeXB op x b &&& 0xF000#16 = encodeXB op 0 0#8 :=
  (and_F000_eq_iff _ op).2 (opField_encodeXB op x b)

/-- Formats `Z` and `XF`. -/
theorem maskXF (op : BitVec 4) (x : Reg) (b : Byte) : encodeXB op x b &&& 0xF0FF#16 = encodeXB op 0 b :=
  (and_F0FF_eq_iff _ op b).2 ⟨opField_encodeXB op x b, nnField_encodeXB op x b⟩

/-- Formats `XY` and `XYN`. -/
theorem maskXY (op : BitVec 4) (x y : Reg) (n : BitVec 4) : encodeXYN op x y n &&& 0xF000#16 = encodeXB op 0 0#8 :=
  (and_F000_eq_iff _ op).2 (opField_encodeXYN op x y n)

/-- Format `XYF`. -/
theorem maskXYF (op : BitVec 4) (x y : Reg) (n : BitVec 4) : encodeXYN op x y n &&& 0xF00F#16 = encodeXYN op 0 0 n :=
  (and_F00F_eq_iff _ op n).2 ⟨opField_encodeXYN op x y n, nField_encodeXYN op x y n⟩

theorem cls : Statement .cls := maskXF _ _ _
theorem ret : Statement .ret := maskXF _ _ _
theorem jp (nnn : BitVec 12) : Statement (.jp nnn) := maskA _ _
theorem call (nnn : BitVec 12) : Statement (.call nnn) := maskA _ _
theorem seImm (x : Reg) (nn : Byte) : Statement (.seImm x nn) := maskXI _ _ _
theorem sneImm (x : Reg) (nn : Byte) : Statement (.sneImm x nn) := maskXI _ _ _
theorem seReg (x y : Reg) : Statement (.seReg x y) := maskXY _ _ _ _
theorem sneReg (x y : Reg) : Statement (.sneReg x y) := maskXY _ _ _ _
theorem ldImm (x : Reg) (nn : Byte) : Statement (.ldImm x nn) := maskXI _ _ _
theorem addImm (x : Reg) (nn : Byte) : Statement (.addImm x nn) := maskXI _ _ _
theorem ldReg (x y : Reg) : Statement (.ldReg x y) := maskXYF _ _ _ _
theorem orReg (x y : Reg) : Statement (.orReg x y) := maskXYF _ _ _ _
theorem andReg (x y : Reg) : Statement (.andReg x y) := maskXYF _ _ _ _
theorem xorReg (x y : Reg) : Statement (.xorReg x y) := maskXYF _ _ _ _
theorem addReg (x y : Reg) : Statement (.addReg x y) := maskXYF _ _ _ _
theorem sub (x y : Reg) : Statement (.sub x y) := maskXYF _ _ _ _
theorem subn (x y : Reg) : Statement (.subn x y) := maskXYF _ _ _ _
theorem shr (x y : Reg) : Statement (.shr x y) := maskXYF _ _ _ _
theorem shl (x y : Reg) : Statement (.shl x y) := maskXYF _ _ _ _
theorem ldI (nnn : BitVec 12) : Statement (.ldI nnn) := maskA _ _
theorem jpV0 (nnn : BitVec 12) : Statement (.jpV0 nnn) := maskA _ _
theorem rnd (x : Reg) (nn : Byte) : Statement (.rnd x nn) := maskXI _ _ _
theorem drw (x y : Reg) (n : Nat) : Statement (.drw x y n) := maskXY _ _ _ _
theorem skp (x : Reg) : Statement (.skp x) := maskXF _ _ _
theorem sknp (x : Reg) : Statement (.sknp x) := maskXF _ _ _
theorem ldVxDt (x : Reg) : Statement (.ldVxDt x) := maskXF _ _ _
theorem ldDtVx (x : Reg) : Statement (.ldDtVx x) := maskXF _ _ _
theorem ldStVx (x : Reg) : Statement (.ldStVx x) := maskXF _ _ _
theorem addI (x : Reg) : Statement (.addI x) := maskXF _ _ _
theorem ldVxK (x : Reg) : Statement (.ldVxK x) := maskXF _ _ _
theorem ldF (x : Reg) : Statement (.ldF x) := maskXF _ _ _
theorem ldB (x : Reg) : Statement (.ldB x) := maskXF _ _ _
theorem stRegs (x : Reg) : Statement (.stRegs x) := maskXF _ _ _
theorem ldRegs (x : Reg) : Statement (.ldRegs x) := maskXF _ _ _

end Sys2Proof.Laws.CanonicalWord
end

