-- ==== Sys2Proof/Laws/Step.lean ====
section
/-! SUPPORT. What a step can do: every case of it, once. -/

namespace Sys2Proof.Machine

/-- If a step answers `t`, then the core was halted and `t` is the old state, or the fetch failed, or the word is no
instruction, or the decoded instruction answered a state `u` after the advance of `pc` and `t` is what follows `u`. -/
theorem step_cases {s t : State} (h : step s = .next t) :
    (s.halted = true ∧ t = s) ∨
    (s.halted = false ∧ ∃ a, fetch s = .error a ∧ t = fetchFault a s) ∨
    (s.halted = false ∧ ∃ w e, fetch s = .ok w ∧ decode w = .error e ∧ t = decodeFault w s) ∨
    (s.halted = false ∧ ∃ w i u, fetch s = .ok w ∧ decode w = .ok i ∧ exec i s.advancePc = .next u ∧ t = endStep u) := by
  unfold step at h
  cases hh : s.halted
  · right
    simp only [hh, Bool.false_eq_true, if_false] at h
    cases hf : fetch s with
    | error a => simp only [hf, Host.Outcome.next.injEq] at h; exact .inl ⟨rfl, a, rfl, h.symm⟩
    | ok w =>
      right
      simp only [hf] at h
      cases hd : decode w with
      | error e => simp only [hd, Host.Outcome.next.injEq] at h; exact .inl ⟨rfl, w, e, rfl, hd, h.symm⟩
      | ok i =>
        simp only [hd] at h
        cases hx : exec i s.advancePc with
        | next u => simp only [hx, Host.Outcome.next.injEq] at h; exact .inr ⟨rfl, w, i, u, rfl, hd, hx, h.symm⟩
        | fault r => cases r
        | refused r => simp [hx] at h
  · simp only [hh, if_true, Host.Outcome.next.injEq] at h
    exact .inl ⟨rfl, h.symm⟩

theorem State.running_iff (s : State) : s.running ↔ s.halted = false := by
  simp [State.running, State.halted]

/-- A run goes on from what its first step answers. -/
theorem run_succ_of_step {s t : State} (h : step s = .next t) (k : Nat) :
    Host.Core.run Sys2Proof.core (k + 1) s = Host.Core.run Sys2Proof.core k t := by
  have h' : Sys2Proof.core.step s = .next t := h
  simp only [Host.Core.run, h']

/-- A halted core answers its own state. -/
theorem step_of_halted {s : State} (h : s.halted = true) : step s = .next s := by simp [step, h]

/-- The host's call on a halted core answers the state as it is: its inputs are not taken. -/
theorem stepWith_of_halted {s : State} (h : s.halted = true) (k : BitVec 16) (r : Byte) : stepWith k r s = .next s := by
  simp [stepWith, State.offerInput, h, step_of_halted h]

/-- The host's call on a running core is a step whose next input is the one handed over. -/
theorem stepWith_of_running {s : State} (h : s.halted = false) (k : BitVec 16) (r : Byte) :
    stepWith k r s = step { s with inputs := ⟨k, r⟩ :: s.inputs } := by
  simp [stepWith, State.offerInput, h]

theorem endStep_of_halted {s : State} (h : s.halted = true) : endStep s = s.consumeInput := by simp [endStep, h]

theorem endStep_of_running {s : State} (h : s.halted = false) : endStep s = s.timerTick.consumeInput := by
  simp [endStep, h]

end Sys2Proof.Machine
end

