-- ==== Sys2Proof/Tests/Slice0.lean ====
section
/-! SUPPORT. The model's own tests: ill-formed terms, decoded words, one step of each instruction, and a state and
operands for the hypotheses of every statement. Expected values are from spec/95_test_vectors.md (T and S numbers) or
written out by hand from the rule named. -/

namespace Sys2Proof.Tests

open Sys2Proof Sys2Proof.Machine

/-! ## Well-formedness: one ill-formed term for each check -/

theorem test_wf_refuses_sprite_height_16 : Instr.wellFormed (.drw 0 0 16) = false := by decide

theorem test_wf_accepts_sprite_height_15 : Instr.wellFormed (.drw 0 0 15) = true := by decide

theorem test_wf_refuses_font_over_program :
    Config.wellFormed { Config.default with fontBase := 0x1B1 } = false := by decide

theorem test_wf_refuses_program_past_memory :
    Config.wellFormed { Config.default with progBase := 4097 } = false := by decide

theorem test_wf_refuses_no_stack : Config.wellFormed { Config.default with stackDepth := 0 } = false := by decide

theorem test_wf_default_config : Config.wellFormed Config.default = true := by decide

/-! ## Decoding: a word of every instruction, written out from the rows of R66 -/

theorem test_decode_control :
    decode 0x00E0#16 = .ok .cls ∧ decode 0x07EE#16 = .ok .ret ∧ decode 0x1ABC#16 = .ok (.jp 0xABC) ∧
    decode 0x2FFE#16 = .ok (.call 0xFFE) ∧ decode 0xB3FE#16 = .ok (.jpV0 0x3FE) := by decide

theorem test_decode_skips :
    decode 0x332A#16 = .ok (.seImm 3 0x2A) ∧ decode 0x432A#16 = .ok (.sneImm 3 0x2A) ∧
    decode 0x512F#16 = .ok (.seReg 1 2) ∧ decode 0x9120#16 = .ok (.sneReg 1 2) ∧
    decode 0xE59E#16 = .ok (.skp 5) ∧ decode 0xE5A1#16 = .ok (.sknp 5) := by decide

theorem test_decode_alu :
    decode 0x6A02#16 = .ok (.ldImm 10 0x02) ∧ decode 0x72FF#16 = .ok (.addImm 2 0xFF) ∧
    decode 0x8010#16 = .ok (.ldReg 0 1) ∧ decode 0x8011#16 = .ok (.orReg 0 1) ∧ decode 0x8012#16 = .ok (.andReg 0 1) ∧
    decode 0x8013#16 = .ok (.xorReg 0 1) ∧ decode 0x8124#16 = .ok (.addReg 1 2) ∧ decode 0x8125#16 = .ok (.sub 1 2) := by
  decide

theorem test_decode_subn_shifts :
    decode 0x8127#16 = .ok (.subn 1 2) ∧ decode 0x8126#16 = .ok (.shr 1 2) ∧ decode 0x812E#16 = .ok (.shl 1 2) := by
  decide

theorem test_decode_index_display :
    decode 0xA22A#16 = .ok (.ldI 0x22A) ∧ decode 0xC30F#16 = .ok (.rnd 3 0x0F) ∧ decode 0xFA1E#16 = .ok (.addI 10) ∧
    decode 0xF429#16 = .ok (.ldF 4) ∧ decode 0xD123#16 = .ok (.drw 1 2 3) := by decide

theorem test_decode_keys_timers_memory :
    decode 0xF50A#16 = .ok (.ldVxK 5) ∧ decode 0xF307#16 = .ok (.ldVxDt 3) ∧ decode 0xF215#16 = .ok (.ldDtVx 2) ∧
    decode 0xF218#16 = .ok (.ldStVx 2) ∧ decode 0xF033#16 = .ok (.ldB 0) ∧ decode 0xF255#16 = .ok (.stRegs 2) ∧
    decode 0xF265#16 = .ok (.ldRegs 2) := by decide

/-- T72, T130, T150, T185: words that are no instruction. -/
theorem test_decode_refuses :
    ([0x0123#16, 0x00E1#16, 0x00FE#16, 0xFFFF#16, 0xF000#16, 0xE000#16, 0x8008#16, 0x812F#16, 0xE59F#16, 0xF308#16].all
      fun w => decode w == .error (.unknownInstruction w)) = true := by decide

theorem test_decode_bytes_too_short : decodeBytes [0x6A#8] = .error .tooShort := by decide

/-- R60: the first byte of the table word in memory is its high byte. -/
theorem test_table_word : decodeTableWord 16 0x6A02 = some (.ldImm 10 0x02) ∧ decodeTableWord 16 0x8128 = none := by decide

/-! ## One step of each instruction -/

/-- The reset state with registers written, `I`, and the inputs of the coming step: `KEYS` 0x8008 (keys 3 and 15 are
pressed), `RAND` 0xB7. -/
def small (regs : List (Reg × Byte)) (index : Word := 0) : State :=
  regs.foldl (fun s p => s.setReg p.1 p.2) { State.reset with index := index, inputs := [⟨0x8008, 0xB7⟩] }

/-- What a step that runs the word `w` answers, seen through `f`. -/
def ran {α : Type} (w : Nat) (s : State) (f : State → α) : Option α :=
  match step (s.withFetchWord 16 w) with
  | .next t => some (f t)
  | .fault _ | .refused _ => none

/-- `pc` and the latch's code after a step that runs `w`. -/
def ranPc (w : Nat) (s : State) : Option (Word × FaultCode) := ran w s fun t => (t.pc, t.fault.code)

/-- `V[X]` and `VF` after a step that runs `w`. -/
def ranReg (w : Nat) (x : Reg) (s : State) : Option (Byte × Byte) := ran w s fun t => (t.reg x, t.reg VF)

/-- Bytes of memory after a step that runs `w`. -/
def ranMem (w a n : Nat) (s : State) : Option (List Byte) := ran w s fun t => (List.range n).map fun k => t.byteAt (a + k)

/-- The pixels of one display row that are on, after a step that runs `w`, and `VF`. -/
def ranRow (w : Nat) (y : Fin 32) (s : State) : Option (List Nat × Byte) :=
  ran w s fun t => (((List.finRange 64).filter fun x => pixel t.disp x y).map Fin.val, t.reg VF)

/-! ### Control transfer -/

/-- T6. -/
theorem test_ret : ran 0x00EE { (small []).push 0x0206 with pc := 0x300 } (fun t => (t.pc, t.sp)) = some (0x206, 0) := by
  decide

/-- T8. -/
theorem test_ret_underflow : ranPc 0x00EE (small []) = some (0x202, .stackUnderflow) := by decide

/-- T1. -/
theorem test_jp : ranPc 0x1ABC (small []) = some (0xABC, .none) := by decide

/-- T5. -/
theorem test_call : ran 0x2300 { small [] with pc := 0x204 } (fun t => (t.pc, t.sp, t.stackAt 0)) =
    some (0x300, 1, 0x206) := by decide

/-- T9. -/
theorem test_call_overflow : ran 0x2300 { small [] with sp := 16 } (fun t => (t.pc, t.sp, t.fault.code)) =
    some (0x202, 16, .stackOverflow) := by decide

/-- T12. -/
theorem test_jp_v0_not_reduced : ranPc 0xBFFF (small [(0, 0xFF)]) = some (0x10FE, .none) := by decide

/-- T13: the nibble 3 selects no register. -/
theorem test_jp_v0 : ranPc 0xB3FE (small [(0, 0x01), (3, 0x55)]) = some (0x3FF, .none) := by decide

/-! ### Skips -/

/-- T20, T21. -/
theorem test_se_imm : ranPc 0x332A (small [(3, 0x2A)]) = some (0x204, .none) ∧
    ranPc 0x332A (small [(3, 0x2B)]) = some (0x202, .none) := by decide

/-- T22, T23. -/
theorem test_sne_imm : ranPc 0x432A (small [(3, 0x2A)]) = some (0x202, .none) ∧
    ranPc 0x432A (small []) = some (0x204, .none) := by decide

/-- T26, T25. -/
theorem test_se_reg : ranPc 0x512F (small [(1, 7), (2, 7)]) = some (0x204, .none) ∧
    ranPc 0x5120 (small [(1, 7), (2, 8)]) = some (0x202, .none) := by decide

/-- T27, T28. -/
theorem test_sne_reg : ranPc 0x9120 (small [(1, 7), (2, 8)]) = some (0x204, .none) ∧
    ranPc 0x9120 (small [(1, 7), (2, 7)]) = some (0x202, .none) := by decide

/-! ### Register load and arithmetic -/

/-- T40. -/
theorem test_ld_imm : ranReg 0x6A02 10 (small []) = some (0x02, 0) := by decide

/-- T42: no carry flag. -/
theorem test_add_imm : ranReg 0x7205 2 (small [(2, 0xFE)]) = some (0x03, 0) := by decide

/-- T44. -/
theorem test_ld_reg : ranReg 0x8010 0 (small [(1, 0x5A)]) = some (0x5A, 0) := by decide

/-- T45. -/
theorem test_or : ranReg 0x8011 0 (small [(0, 0xF0), (1, 0x3C), (15, 1)]) = some (0xFC, 1) := by decide

/-- T46. -/
theorem test_and : ranReg 0x8012 0 (small [(0, 0xF0), (1, 0x3C), (15, 1)]) = some (0x30, 1) := by decide

/-- T47. -/
theorem test_xor : ranReg 0x8013 0 (small [(0, 0xF0), (1, 0x3C), (15, 1)]) = some (0xCC, 1) := by decide

/-- T51: the flag is written also when it is 0. -/
theorem test_add_reg : ranReg 0x8124 1 (small [(1, 0xFF), (2, 0x00), (15, 1)]) = some (0xFF, 0) := by decide

/-- T55: the old `VF` is the addend. -/
theorem test_add_reg_vf : ranReg 0x81F4 1 (small [(1, 0xFE), (15, 0x03)]) = some (0x01, 1) := by decide

/-- T57: equal operands do not borrow. -/
theorem test_sub_equal : ranReg 0x8125 1 (small [(1, 5), (2, 5)]) = some (0, 1) := by decide

/-- T58. -/
theorem test_sub_borrow : ranReg 0x8125 1 (small [(1, 5), (2, 6)]) = some (0xFF, 0) := by decide

/-- T61. -/
theorem test_subn : ranReg 0x8127 1 (small [(1, 0x10), (2, 0x20)]) = some (0x10, 1) := by decide

/-- T62. -/
theorem test_subn_borrow : ranReg 0x8127 1 (small [(1, 0x20), (2, 0x10)]) = some (0xF0, 0) := by decide

/-- T64: the source is `V[Y]`. -/
theorem test_shr : ranReg 0x8126 1 (small [(1, 0xAA), (2, 0x81)]) = some (0x40, 1) := by decide

/-- T66: `SHIFT_USES_VY` false. -/
theorem test_shr_vx : ranReg 0x8126 1
    { small [(1, 0x06), (2, 0xFF)] with cfg := { Config.default with shiftUsesVy := false } } = some (0x03, 0) := by decide

/-- T67. -/
theorem test_shl : ranReg 0x812E 1 (small [(2, 0x81)]) = some (0x02, 1) := by decide

/-! ### Index register and random -/

/-- T80. -/
theorem test_ld_i : ran 0xA22A (small []) (fun t => t.index) = some 0x22A := by decide

/-- T82: `RAND` 0xB7. -/
theorem test_rnd : ranReg 0xC30F 3 (small []) = some (0x07, 0) := by decide

/-- T88: `VF` left exactly as it was. -/
theorem test_add_i : ran 0xF01E (small [(0, 1), (15, 0xAB)] 0x0FFE) (fun t => (t.index, t.reg VF)) = some (0xFFF, 0xAB) := by
  decide

/-- T91. -/
theorem test_add_i_wraps : ran 0xF01E (small [(0, 2)] 0xFFFF) (fun t => (t.index, t.reg VF)) = some (0x0001, 1) := by decide

/-- T96: the whole byte is multiplied. -/
theorem test_ld_f : ran 0xF429 (small [(4, 0xFF)]) (fun t => t.index) = some 0x054B := by decide

/-! ### Display -/

/-- T101: with pixel (3, 4) on before, row 4 is off after, and `VF` stays. -/
theorem test_cls : ranRow 0x0AE0 4 { small [(15, 1)] with disp := (toggle clearedDisplay 3 4).2 } = some ([], 1) := by decide

/-- T109. -/
theorem test_drw_collision : ranRow 0xD001 0
    { (small [] 0x300).storeBlock 0x300 [0xC0] with disp := (toggle clearedDisplay 1 0).2 } = some ([0], 1) := by decide

/-- T106: clipped at the right edge. -/
theorem test_drw_clips : ranRow 0xD121 0 ((small [(1, 62)] 0x300).storeBlock 0x300 [0xFF]) = some ([62, 63], 0) := by decide

/-! ### Keypad and timers: keys 3 and 15 are pressed -/

/-- R140: key 3 is pressed, and 16 is no key (P8e). -/
theorem test_skp : ranPc 0xE59E (small [(5, 3)]) = some (0x204, .none) ∧
    ran 0xE09E (small [(0, 0x10)]) (fun t => (t.pc, t.fault)) = some (0x202, ⟨.outOfRange, .key, 0x10⟩) := by decide

/-- R141: key 4 is not pressed, key 15 is. -/
theorem test_sknp : ranPc 0xE5A1 (small [(5, 4)]) = some (0x204, .none) ∧
    ranPc 0xE5A1 (small [(5, 15)]) = some (0x202, .none) := by decide

/-- T128. -/
theorem test_key_wait_lowest : ranReg 0xF50A 5 (small [(5, 0x33)]) = some (0x03, 0) := by decide

/-- R142: no key pressed, `pc` stays, the timer ticks. -/
theorem test_key_wait_waits : ran 0xF50A { small [] with inputs := [⟨0, 0⟩], dt := 2 } (fun t => (t.pc, t.dt)) =
    some (0x200, 1) := by decide

/-- T140. -/
theorem test_ld_vx_dt : ran 0xF307 { small [] with dt := 9 } (fun t => (t.reg 3, t.dt)) = some (9, 8) := by decide

/-- T143. -/
theorem test_ld_dt : ran 0xF215 (small [(2, 5)]) (fun t => t.dt) = some 4 := by decide

/-- T147, T148. -/
theorem test_ld_st : ran 0xF218 (small [(2, 3)]) (fun t => (t.st, t.soundOut)) = some (2, true) ∧
    ran 0xF218 (small [(2, 1)]) (fun t => (t.st, t.soundOut)) = some (0, false) := by decide

/-! ### Memory transfer -/

/-- T160. -/
theorem test_ld_b : ranMem 0xF033 0x300 3 (small [(0, 254)] 0x300) = some [2, 5, 4] := by decide

/-- T166: no partial write. -/
theorem test_ld_b_out : ran 0xF033 (small [(0, 123)] 0x0FFE) (fun t => (t.fault, t.mem, t.byteAt 4094)) =
    some (⟨.outOfRange, .mem, 4096⟩, [(0x200, 0xF0), (0x201, 0x33)], 0) := by decide

/-- T168. -/
theorem test_st_regs : ranMem 0xF255 0x400 4 (small [(0, 0x11), (1, 0x22), (2, 0x33), (3, 0x44)] 0x400) =
    some [0x11, 0x22, 0x33, 0] := by decide

/-- T171. -/
theorem test_st_regs_out : ran 0xFF55 (small [(0, 1)] 0x0FF1) (fun t => (t.fault, t.byteAt 4081)) =
    some (⟨.outOfRange, .mem, 4096⟩, 0) := by decide

/-- T173. -/
theorem test_ld_regs : ran 0xF265 ((small [(3, 0x77)] 0x300).storeBlock 0x300 [2, 5, 4])
    (fun t => (t.reg 0, t.reg 1, t.reg 2, t.reg 3, t.index)) = some (2, 5, 4, 0x77, 0x300) := by decide

/-- T176. -/
theorem test_ld_regs_out : ran 0xF165 (small [(0, 9)] 0x0FFF) (fun t => (t.fault, t.reg 0)) =
    some (⟨.outOfRange, .mem, 4096⟩, 9) := by decide

/-! ### Fetch, decode and reset -/

/-- T184, T190, P8g: reset with no image, then a step. -/
theorem test_reset_step : (match step State.reset with | .next t => some (t.pc, t.fault) | _ => none) =
    some (0x202, ⟨.unknownInstruction, .mem, 0⟩) := by decide

/-- T182. -/
theorem test_fetch_fault : (match step { State.reset with pc := 0xFFF, dt := 5 } with
    | .next t => some (t.pc, t.dt, t.fault) | _ => none) = some (0xFFF, 5, ⟨.outOfRange, .mem, 4096⟩) := by decide

/-- R175, R215: the host's step on a halted core leaves nothing behind, on a running core it samples its inputs (T82). -/
theorem test_host_step :
    (match stepWith 0xFFFF 0xFF (raise .stackUnderflow .mem 0 State.reset) with
      | .next t => t == raise .stackUnderflow .mem 0 State.reset | _ => false) = true ∧
    (match stepWith 0 0xB7 (State.reset.withFetchWord 16 0xC30F) with
      | .next t => some (t.reg 3, t.inputs) | _ => none) = some (0x07, []) := by decide

/-- A word placed on the reset state is the one that runs. -/
theorem test_with_fetch_word : fetch (State.reset.withFetchWord 16 0x6A02) = .ok 0x6A02 := by decide

/-- T191: the default font's first and last byte, and the zeros around it. -/
theorem test_reset_font : (State.reset.byteAt 0x50, State.reset.byteAt 0x9F, State.reset.byteAt 0x4F, State.reset.byteAt 0xA0) =
    (0xF0, 0x80, 0, 0) := by decide

/-! ## Witnesses: for each statement with hypotheses, what meets them together, each clause at a boundary -/

/-- Whether an instruction answers a next state. -/
def answers (r : Result) : Bool := match r with | .next _ => true | .fault _ | .refused _ => false

/-- The reset state with a word placed at an address and `pc` there. -/
def placed (w : Nat) (a : Nat) : State := { State.reset with pc := BitVec.ofNat 16 a }.withFetchWord 16 w

theorem witness_DecodeInvertsEncode : Instr.wellFormed (.drw 15 15 15) = true := by decide

theorem witness_IllegalWordsAreRefused :
    decode 0x0FE1#16 = .error (.unknownInstruction 0x0FE1#16) ∧ decode 0x800F#16 = .error (.unknownInstruction 0x800F#16) ∧
    decode 0xEFA2#16 = .error (.unknownInstruction 0xEFA2#16) ∧ decode 0xFF66#16 = .error (.unknownInstruction 0xFF66#16) := by
  decide

theorem witness_StepRunsDecodedInstruction :
    let s := placed 0x6A02 4094
    s.fault.code = .none ∧ s.memRead s.pc.toNat = some 0x6A ∧ s.memRead (s.pc.toNat + 1) = some 0x02 ∧
      decode (BitVec.ofNat 16 ((0x6A#8).toNat * 256 + (0x02#8).toNat)) = .ok (.ldImm 10 0x02) := by decide

theorem witness_FetchIsBigEndian :
    ({ State.reset with pc := 4094 } : State).pc.toNat ≤ 4094 ∧ ({ State.reset with pc := 4095 } : State).pc.toNat = 4095 ∧
    4095 < ({ State.reset with pc := 4096 } : State).pc.toNat := by decide

theorem witness_FetchFaultLatches :
    State.reset.fault.code = .none ∧ 4094 < ({ State.reset with pc := 4095 } : State).pc.toNat := by decide

theorem witness_DecodeFaultLatches :
    State.reset.fault.code = .none ∧ fetch State.reset = .ok 0 ∧
      (opcodeMap.all fun r => 0#16 &&& r.mask != r.pattern) = true := by decide

theorem witness_HaltedCoreStays : (raise .stackUnderflow .mem 0 State.reset).fault.code ≠ .none := by decide

theorem witness_TimersTickOncePerStep :
    State.reset.fault.code = .none ∧ (∃ t, step State.reset = .next t ∧ t.fault.code ≠ .none) ∧
    (placed 0x6A02 0x200).fault.code = .none ∧ ∃ t, step (placed 0x6A02 0x200) = .next t ∧ t.fault.code = .none :=
  ⟨rfl, ⟨_, rfl, by decide⟩, rfl, ⟨_, rfl, by decide⟩⟩

theorem witness_FaultsArePrecise :
    (placed 0x00EE 0x200).fault.code = .none ∧ ∃ t, step (placed 0x00EE 0x200) = .next t ∧ t.fault.code ≠ .none :=
  ⟨rfl, _, rfl, by decide⟩

theorem witness_InstructionsRaiseTheFaultTable :
    faultOf State.reset .ret = some ⟨.stackUnderflow, .mem, 0⟩ ∧
    faultOf { State.reset with index := 0x0FFE } (.ldB 0) = some ⟨.outOfRange, .mem, 4096⟩ := by decide

theorem witness_InstructionsWriteOnlyTheirParts : answers (exec (.addReg 1 2) State.reset) = true := by decide

theorem witness_FlagWritersOfVF :
    answers (exec (.drw 1 2 1) { State.reset with index := 4095 }) = true ∧
    faultOf { State.reset with index := 4095 } (.drw 0 0 1) = none ∧
    answers (exec (.ldImm 14 1) State.reset) = true ∧ (14 : Reg) ≠ VF := by decide

theorem witness_StepKeepsInvariant :
    let s := { State.reset.push 4096 with pc := 0x10FE }
    s.Inv ∧ ∃ t, step s = .next t := by
  refine ⟨⟨by decide, Memory.nil_wf _, ?_, by decide, ⟨rfl, rfl⟩⟩, _, rfl⟩
  refine ⟨by decide, by decide, fun k hk => ?_⟩
  have : k = 0 := by simp [State.push, State.reset, State.resetFor] at hk; omega
  subst this; decide

theorem witness_HostResetIsLegal : State.reset.cfg.wellFormed = true := by decide

theorem witness_ResetMemoryContents :
    State.reset.cfg.wellFormed = true ∧ (List.replicate 3584 (0xAA : Byte)).length ≤ 4096 - State.reset.cfg.progBase ∧
      4095 < 4096 :=
  ⟨by decide, by rw [List.length_replicate]; decide, by decide⟩

theorem witness_ResetEntryAndDisplay :
    State.reset.cfg.wellFormed = true ∧ ([0x12, 0x00] : List Byte).length ≤ 4096 - State.reset.cfg.progBase ∧
      State.reset.cfg.progBase ≤ 4094 := by decide

theorem witness_ResetRegistersAreZero :
    ([] : List Byte).length ≤ 4096 - State.reset.cfg.progBase ∧
    (State.reset.setReg 1 5).cfg = State.reset.cfg ∧ (State.reset.setReg 1 5).inputs = State.reset.inputs ∧
      (State.reset.setReg 1 5).freeIx = State.reset.freeIx := by decide

theorem witness_OversizedImageHalts :
    4096 - State.reset.cfg.progBase < (List.replicate 3585 (0xAA : Byte)).length := by
  rw [List.length_replicate]; decide

theorem witness_ReturnPopsIntoPc :
    State.reset.sp = 0 ∧ ({ State.reset with sp := 16 } : State).sp ≠ 0 ∧
      ({ State.reset with sp := 16 } : State).sp ≤ State.reset.stack.length := by decide

theorem witness_CallPushesAndJumps :
    ({ State.reset with sp := 16 } : State).sp = State.reset.cfg.stackDepth ∧
    ({ State.reset with sp := 15 } : State).sp ≠ State.reset.cfg.stackDepth ∧
    ({ State.reset with sp := 15 } : State).sp < State.reset.stack.length := by decide

/-- T14. -/
theorem witness_CallThenReturnComesBack :
    let s := (placed 0x2FFE 0x200).storeBlock 0xFFE [0x00, 0xEE]
    s.fault.code = .none ∧ s.stackLegal ∧ s.sp < s.cfg.stackDepth ∧ fetch s = .ok 0x2FFE ∧
      decode 0x2FFE = .ok (.call 0xFFE) ∧ fetch { s with pc := (0xFFE#12).setWidth 16 } = .ok 0x00EE ∧
      decode 0x00EE = .ok .ret := by
  refine ⟨by decide, ⟨by decide, by decide, fun k hk => absurd hk (Nat.not_lt_zero k)⟩, by decide, by decide, by decide,
    by decide, by decide⟩

/-- The condition under which `AddSetsCarry`, `SubtractionsSetNotBorrow` and `ShiftsByOne` state a result register. -/
theorem witness_AddSetsCarry : (0 : Reg) ≠ VF ∧ (14 : Reg) ≠ VF := by decide

theorem witness_SubtractionsSetNotBorrow :
    (14 : Reg) ≠ VF ∧ ((small [(1, 5), (2, 6)]).reg 1).toNat < ((small [(1, 5), (2, 6)]).reg 2).toNat := by decide

theorem witness_ShiftsByOne : (14 : Reg) ≠ VF ∧ State.reset.cfg.shiftUsesVy = true := by decide

theorem witness_IndexLoads : State.reset.cfg.wellFormed = true := by decide

theorem witness_RandomIsMasked : (small []).inputs = ⟨0x8008, 0xB7⟩ :: [] := by decide

theorem witness_AddToIndexSetsOnly :
    0x0FFF < (small [(0, 1)] 0x0FFF).index.toNat + ((small [(0, 1)] 0x0FFF).reg 0).toNat ∧
    (small [(0, 1)] 0x0FFE).index.toNat + ((small [(0, 1)] 0x0FFE).reg 0).toNat ≤ 0x0FFF := by decide

theorem witness_DrawIsXorWithCollision :
    ({ State.reset with index := 4081 } : State).index.toNat + 15 ≤ 4096 ∧
    4096 < ({ State.reset with index := 4082 } : State).index.toNat + 15 ∧
    ((0 : Fin 16).val = 0 ∧ 4096 < ({ State.reset with index := 0xFFFF } : State).index.toNat) ∧
    (∃ px py, pixel (toggle clearedDisplay 7 0).2 px py = true ∧
      spriteBitAt { State.reset with index := 0x073, disp := (toggle clearedDisplay 7 0).2 } 0 0 1 px py = false) ∧
    (∃ px py, pixel (toggle clearedDisplay 3 0).2 px py = true ∧
      spriteBitAt { State.reset with index := 0x073, disp := (toggle clearedDisplay 3 0).2 } 0 0 1 px py = true) :=
  ⟨by decide, by decide, by decide, ⟨7, 0, by decide, by decide⟩, ⟨3, 0, by decide, by decide⟩⟩

theorem witness_DrawTwiceRestores :
    (1 : Reg) ≠ VF ∧ (2 : Reg) ≠ VF ∧ ({ State.reset with index := 4081 } : State).index.toNat + 15 ≤ 4096 := by decide

theorem witness_KeySkips :
    ((small [(5, 15)]).reg 5).toNat ≤ 15 ∧ 15 < ((small [(5, 16)]).reg 5).toNat ∧
    (small [(5, 15)]).input.keys.getLsbD 15 = true ∧ (small [(5, 14)]).input.keys.getLsbD 14 = false := by decide

theorem witness_KeyWaitInstruction :
    ({ State.reset with inputs := [⟨0, 0⟩] } : State).input.keys = 0 ∧ (small []).input.keys ≠ 0 ∧
      (small []).cfg.keySelect = [] := by decide

theorem witness_KeyWaitStandsStill :
    let s := { placed 0xF50A 0x200 with inputs := [⟨0, 1⟩, ⟨0, 2⟩, ⟨0x0080, 3⟩] }
    s.fault.code = .none ∧ fetch s = .ok 0xF50A ∧ decode 0xF50A = .ok (.ldVxK 5) ∧
      (∀ j, j < 2 → ∃ d, s.inputs[j]? = some d ∧ d.keys = 0) ∧ s.inputs[2]? = some ⟨0x0080, 3⟩ ∧
      (⟨0x0080, 3⟩ : Input).keys ≠ 0 := by
  refine ⟨by decide, by decide, by decide, fun j hj => ?_, by decide, by decide⟩
  have : j = 0 ∨ j = 1 := by omega
  rcases this with rfl | rfl <;> exact ⟨_, rfl, rfl⟩

theorem witness_EveryKeySelectIsATable :
    ∃ f : BitVec 16 → Fin 16, ∀ keys : BitVec 16, keys ≠ 0 → keys.getLsbD (f keys).val = true := by
  refine ⟨fun keys => (lowestKey keys).getD 0, fun keys h => ?_⟩
  cases hk : lowestKey keys with
  | none => exact absurd (lowestKey_eq_none.1 hk) h
  | some k => simpa [hk] using (lowestKey_eq_some hk).1

theorem witness_BcdDigitsMultiplyOut :
    Memory.wf State.reset.cfg State.reset.mem ∧ ({ State.reset with index := 4093 } : State).index.toNat + 2 ≤ 4095 ∧
    4095 < ({ State.reset with index := 4094 } : State).index.toNat + 2 := ⟨Memory.nil_wf _, by decide, by decide⟩

/-- The hypotheses of `StoreRegistersInclusive`, `LoadRegistersInclusive` and `DumpThenLoadRestores`, `X` = 15. -/
theorem witness_StoreRegistersInclusive :
    Memory.wf State.reset.cfg State.reset.mem ∧ ({ State.reset with index := 4080 } : State).index.toNat + (15 : Reg).val ≤ 4095 ∧
    4095 < ({ State.reset with index := 4081 } : State).index.toNat + (15 : Reg).val := ⟨Memory.nil_wf _, by decide, by decide⟩

theorem witness_LoadRegistersInclusive :
    ({ State.reset with index := 4095 } : State).index.toNat + (0 : Reg).val ≤ 4095 ∧
    4095 < ({ State.reset with index := 4095 } : State).index.toNat + (1 : Reg).val := by decide

theorem witness_DumpThenLoadRestores :
    Memory.wf State.reset.cfg State.reset.mem ∧ State.reset.index.toNat + (15 : Reg).val ≤ 4095 ∧
    ∃ t u : State, exec (.stRegs 15) State.reset = .next t ∧ u.cfg = t.cfg ∧ u.mem = t.mem ∧ u.index = t.index :=
  ⟨Memory.nil_wf _, by decide, _, _, rfl, rfl, rfl, rfl⟩

theorem witness_StoreIsSeenByFetch :
    Memory.wf State.reset.cfg State.reset.mem ∧ ({ State.reset with index := 4094 } : State).index.toNat + (1 : Reg).val ≤ 4095 ∧
    (1 : Reg).val = (0 : Reg).val + 1 ∧ (1 : Reg) ≤ 1 := ⟨Memory.nil_wf _, by decide, by decide, by decide⟩

theorem witness_CanonicalMemoryIsUnique :
    Memory.wf Config.default (Memory.write Config.default [] 4095 7) ∧
      Memory.wf Config.default (Memory.write Config.default (Memory.write Config.default [] 4095 9) 4095 7) ∧
      Memory.write Config.default (Memory.write Config.default [] 4095 9) 4095 7 =
        Memory.write Config.default [] 4095 7 := by
  refine ⟨Memory.write_wf (Memory.nil_wf _) (by decide) _,
    Memory.write_wf (Memory.write_wf (Memory.nil_wf _) (by decide) _) (by decide) _, by decide⟩

theorem witness_SoundTimerIsUnreadable : ∃ t, step { placed 0xF307 0x200 with st := 9 } = .next t := ⟨_, rfl⟩

theorem witness_PoppedEntriesAreUnreadable :
    let s := { (placed 0x00EE 0x200).push 0x0206 with pc := 0x200 }
    (s.stack.set 1 7).length = s.stack.length ∧ (∀ k, k < s.sp → (s.stack.set 1 7)[k]? = s.stack[k]?) ∧
      s.stack.set 1 7 ≠ s.stack ∧ ∃ t, step s = .next t := by
  refine ⟨by decide, fun k hk => ?_, by decide, _, rfl⟩
  have h0 : k < 1 := hk
  have : k = 0 := by omega
  subst this; decide

theorem witness_InputsReadOnlyByTheirInstructions :
    (placed 0x6A02 0x200).fault.code = .none ∧ fetch (placed 0x6A02 0x200) = .ok 0x6A02 ∧
      decode 0x6A02 = .ok (.ldImm 10 2) ∧ (∀ x nn, Instr.ldImm 10 2 ≠ .rnd x nn) ∧
      ∀ x, Instr.ldImm 10 2 ≠ .skp x ∧ Instr.ldImm 10 2 ≠ .sknp x ∧ Instr.ldImm 10 2 ≠ .ldVxK x :=
  ⟨by decide, by decide, by decide, by simp, by simp⟩

theorem witness_JumpToSelfStandsStill :
    let s := placed 0x1FFE 4094
    s.fault.code = .none ∧ s.pc.toNat ≤ 4094 ∧ fetch s = .ok (BitVec.ofNat 16 (0x1000 + s.pc.toNat)) := by decide

theorem witness_InstructionsWriteOnlyTheirParts_memory :
    answers (exec (.ldB 0) { State.reset with index := 4093 }) = true ∧
    answers (exec (.stRegs 15) { State.reset with index := 4080 }) = true := by decide

theorem witness_HostStepKeepsNoInput :
    (raise .stackUnderflow .mem 0 State.reset).fault.code ≠ .none ∧ State.reset.fault.code = .none := by decide

theorem witness_HostPortsReadState :
    ({ State.reset with disp := (toggle clearedDisplay 63 31).2 } : State).pixelPort 63 31 = true ∧
    State.reset.readPixel 64 31 = none ∧ State.reset.readPixel 63 32 = none ∧
      State.reset.readPixel 63 31 = some false ∧ State.reset.soundOut = false := by decide

end Sys2Proof.Tests
end

section
/-! PROOFS. The decoder against the opcode map (spec/30_encoding.md R64, R66). The two directions are apart: a matching
row's instruction is what the decoder reads (`OpcodeRow.Decodes`), and a word the decoder reads matches some row
(`MatchesRow`). That the instruction is that row's then follows, since `decode` is a function. -/

namespace Sys2Proof

/-- The decoder reads this row's instruction from every word that matches the row (R66). -/
def OpcodeRow.Decodes (r : OpcodeRow) : Prop :=
  ∀ w : Word, w &&& r.mask = r.pattern → decode w = .ok (r.build w)

/-- Some row of the opcode map matches the word (R66). -/
def MatchesRow (w : Word) : Prop :=
  ∃ r ∈ opcodeMap, w &&& r.mask = r.pattern

/-! ### A matching row is what the decoder reads -/

section
variable {build : Word → Instr}

theorem decodes_of_opField (op : BitVec 4) (h : ∀ w, opField w = op → decode w = .ok (build w)) :
    OpcodeRow.Decodes ⟨0xF000#16, encodeXB op 0 0#8, build⟩ :=
  fun w hw => h w ((and_F000_eq_iff w op).1 hw)

theorem decodes_of_byte (op : BitVec 4) (b : Byte)
    (h : ∀ w, opField w = op → nnField w = b → decode w = .ok (build w)) :
    OpcodeRow.Decodes ⟨0xF0FF#16, encodeXB op 0 b, build⟩ := fun w hw => by
  obtain ⟨hop, hnn⟩ := (and_F0FF_eq_iff w op b).1 hw
  exact h w hop hnn

theorem decodes_of_nibble (op n : BitVec 4)
    (h : ∀ w, opField w = op → nField w = n → decode w = .ok (build w)) :
    OpcodeRow.Decodes ⟨0xF00F#16, encodeXYN op 0 0 n, build⟩ := fun w hw => by
  obtain ⟨hop, hn⟩ := (and_F00F_eq_iff w op n).1 hw
  exact h w hop hn

end

theorem opcodeMapA_decodes : ∀ r ∈ opcodeMapA, r.Decodes := by
  simp only [opcodeMapA, List.forall_mem_cons, List.not_mem_nil, false_implies, implies_true, and_true]
  refine ⟨decodes_of_byte 0x0#4 0xE0#8 ?_, decodes_of_byte 0x0#4 0xEE#8 ?_, decodes_of_opField 0x1#4 ?_,
    decodes_of_opField 0x2#4 ?_, decodes_of_opField 0x3#4 ?_, decodes_of_opField 0x4#4 ?_,
    decodes_of_opField 0x5#4 ?_, decodes_of_opField 0x9#4 ?_, decodes_of_opField 0x6#4 ?_,
    decodes_of_opField 0x7#4 ?_⟩
  all_goals intros; simp [decode, decodeFamily0, *]

theorem opcodeMapB_decodes : ∀ r ∈ opcodeMapB, r.Decodes := by
  simp only [opcodeMapB, List.forall_mem_cons, List.not_mem_nil, false_implies, implies_true, and_true]
  refine ⟨decodes_of_nibble 0x8#4 0x0#4 ?_, decodes_of_nibble 0x8#4 0x1#4 ?_, decodes_of_nibble 0x8#4 0x2#4 ?_,
    decodes_of_nibble 0x8#4 0x3#4 ?_, decodes_of_nibble 0x8#4 0x4#4 ?_, decodes_of_nibble 0x8#4 0x5#4 ?_,
    decodes_of_nibble 0x8#4 0x7#4 ?_, decodes_of_nibble 0x8#4 0x6#4 ?_, decodes_of_nibble 0x8#4 0xE#4 ?_,
    decodes_of_opField 0xA#4 ?_, decodes_of_opField 0xB#4 ?_, decodes_of_opField 0xC#4 ?_,
    decodes_of_opField 0xD#4 ?_⟩
  all_goals intros; simp [decode, decodeFamily8, *]

theorem opcodeMapC_decodes : ∀ r ∈ opcodeMapC, r.Decodes := by
  simp only [opcodeMapC, List.forall_mem_cons, List.not_mem_nil, false_implies, implies_true, and_true]
  refine ⟨decodes_of_byte 0xE#4 0x9E#8 ?_, decodes_of_byte 0xE#4 0xA1#8 ?_, decodes_of_byte 0xF#4 0x07#8 ?_,
    decodes_of_byte 0xF#4 0x15#8 ?_, decodes_of_byte 0xF#4 0x18#8 ?_, decodes_of_byte 0xF#4 0x1E#8 ?_,
    decodes_of_byte 0xF#4 0x0A#8 ?_, decodes_of_byte 0xF#4 0x29#8 ?_, decodes_of_byte 0xF#4 0x33#8 ?_,
    decodes_of_byte 0xF#4 0x55#8 ?_, decodes_of_byte 0xF#4 0x65#8 ?_⟩
  all_goals intros; simp [decode, decodeFamilyE, decodeFamilyF, *]

theorem opcodeMap_decodes {r : OpcodeRow} (hr : r ∈ opcodeMap) : r.Decodes := by
  simp only [opcodeMap, List.mem_append] at hr
  obtain (hA | hB) | hC := hr
  · exact opcodeMapA_decodes r hA
  · exact opcodeMapB_decodes r hB
  · exact opcodeMapC_decodes r hC

/-! ### A word that the decoder reads matches a row -/

section
variable {w : Word} {i : Instr}

theorem matchesRow_of_opField (ops : List Nat) (hop : (opField w).toNat ∈ ops)
    (hrows : ∀ k ∈ ops, ∃ r ∈ opcodeMap, r.mask = 0xF000#16 ∧ r.pattern = encodeXB (BitVec.ofNat 4 k) 0 0#8) :
    MatchesRow w := by
  obtain ⟨r, hr, hmask, hpattern⟩ := hrows _ hop
  refine ⟨r, hr, ?_⟩
  rw [hmask, hpattern, BitVec.ofNat_toNat, BitVec.setWidth_eq]
  exact and_F000 w

theorem matchesRow_of_byte (op : BitVec 4) (bs : List Nat) (hop : opField w = op) (hnn : (nnField w).toNat ∈ bs)
    (hrows : ∀ k ∈ bs, ∃ r ∈ opcodeMap, r.mask = 0xF0FF#16 ∧ r.pattern = encodeXB op 0 (BitVec.ofNat 8 k)) :
    MatchesRow w := by
  obtain ⟨r, hr, hmask, hpattern⟩ := hrows _ hnn
  refine ⟨r, hr, ?_⟩
  rw [hmask, hpattern, BitVec.ofNat_toNat, BitVec.setWidth_eq, ← hop]
  exact and_F0FF w

theorem matchesRow_of_nibble (op : BitVec 4) (ns : List Nat) (hop : opField w = op) (hn : (nField w).toNat ∈ ns)
    (hrows : ∀ k ∈ ns, ∃ r ∈ opcodeMap, r.mask = 0xF00F#16 ∧ r.pattern = encodeXYN op 0 0 (BitVec.ofNat 4 k)) :
    MatchesRow w := by
  obtain ⟨r, hr, hmask, hpattern⟩ := hrows _ hn
  refine ⟨r, hr, ?_⟩
  rw [hmask, hpattern, BitVec.ofNat_toNat, BitVec.setWidth_eq, ← hop]
  exact and_F00F w

theorem nnField_mem_of_decodeFamily0 (h : decodeFamily0 w = .ok i) : (nnField w).toNat ∈ [0xE0, 0xEE] := by
  unfold decodeFamily0 at h
  split at h
  case h_3 => cases h
  all_goals simp [*]

theorem nField_mem_of_decodeFamily8 (h : decodeFamily8 w = .ok i) :
    (nField w).toNat ∈ [0x0, 0x1, 0x2, 0x3, 0x4, 0x5, 0x6, 0x7, 0xE] := by
  unfold decodeFamily8 at h
  split at h
  case h_10 => cases h
  all_goals simp [*]

theorem nnField_mem_of_decodeFamilyE (h : decodeFamilyE w = .ok i) : (nnField w).toNat ∈ [0x9E, 0xA1] := by
  unfold decodeFamilyE at h
  split at h
  case h_3 => cases h
  all_goals simp [*]

theorem nnField_mem_of_decodeFamilyF (h : decodeFamilyF w = .ok i) :
    (nnField w).toNat ∈ [0x07, 0x0A, 0x15, 0x18, 0x1E, 0x29, 0x33, 0x55, 0x65] := by
  unfold decodeFamilyF at h
  split at h
  case h_10 => cases h
  all_goals simp [*]

theorem matchesRow_of_decode (h : decode w = .ok i) : MatchesRow w := by
  unfold decode at h
  split at h
  case h_1 hop =>
    exact matchesRow_of_byte 0x0#4 _ (BitVec.eq_of_toNat_eq hop) (nnField_mem_of_decodeFamily0 h) (by decide)
  case h_9 hop =>
    exact matchesRow_of_nibble 0x8#4 _ (BitVec.eq_of_toNat_eq hop) (nField_mem_of_decodeFamily8 h) (by decide)
  case h_15 hop =>
    exact matchesRow_of_byte 0xE#4 _ (BitVec.eq_of_toNat_eq hop) (nnField_mem_of_decodeFamilyE h) (by decide)
  case h_16 hop =>
    exact matchesRow_of_byte 0xF#4 _ (BitVec.eq_of_toNat_eq hop) (nnField_mem_of_decodeFamilyF h) (by decide)
  case h_17 => cases h
  -- The 12 families without a selector.
  all_goals
    exact matchesRow_of_opField [0x1, 0x2, 0x3, 0x4, 0x5, 0x6, 0x7, 0x9, 0xA, 0xB, 0xC, 0xD] (by simp [*]) (by decide)

end

/-- Settles O2: a word that the decoder reads matches a row (`matchesRow_of_decode`), the decoder reads a matching row's
instruction (`opcodeMap_decodes`), and `decode` answers only one instruction. -/
theorem decodeFollowsOpcodeMap : Obligations.DecodeFollowsOpcodeMap := by
  refine ⟨rfl, fun w i => ⟨fun h => ?_, ?_⟩⟩
  · obtain ⟨r, hr, hmatch⟩ := matchesRow_of_decode h
    have hrow : decode w = .ok (r.build w) := opcodeMap_decodes hr w hmatch
    exact ⟨r, hr, hmatch, Except.ok.inj (h.symm.trans hrow)⟩
  · rintro ⟨r, hr, hmatch, rfl⟩
    exact opcodeMap_decodes hr w hmatch

end Sys2Proof
end

section
/-! PROOFS. Control transfer (spec/40_control_transfer.md). A word of format `A` written as a number is the encoder's
word, so its fields are known; an address extended to a word keeps its value. -/

namespace Sys2Proof.Machine

/-- A row's `match` plus `NNN` is the leading nibble followed by `NNN` (R61, R66). -/
theorem wordA_eq_encodeA (op : BitVec 4) (nnn : BitVec 12) : wordA (op.toNat * 4096) nnn = encodeA op nnn := by
  apply BitVec.eq_of_toNat_eq
  have := op.isLt; have := nnn.isLt
  rw [wordA, BitVec.toNat_ofNat, encodeA_toNat]; omega

@[simp] theorem zextAddr_toNat (nnn : BitVec 12) : (zextAddr nnn).toNat = nnn.toNat :=
  BitVec.toNat_setWidth_of_le (by decide)

theorem decode_encodeA_jp (nnn : BitVec 12) : decode (encodeA 0x1#4 nnn) = .ok (.jp nnn) := by
  simp [decode]

theorem exec_jp (nnn : BitVec 12) (s : State) : exec (.jp nnn) s = .next (s.setPc (zextAddr nnn)) := rfl

/-- Settles O26: the word is the encoder's (`wordA_eq_encodeA`), and the jump writes the extended address to `pc`. -/
theorem jumpGoesToLowTwelveBits : Obligations.JumpGoesToLowTwelveBits := by
  intro nnn s
  have hword : wordA 0x1000 nnn = encodeA 0x1#4 nnn := wordA_eq_encodeA 0x1#4 nnn
  rw [hword]
  exact ⟨decode_encodeA_jp nnn, s.setPc (zextAddr nnn), exec_jp nnn s, zextAddr_toNat nnn, onlyChanges_setPc s _⟩

end Sys2Proof.Machine
end

section
/-! PROOFS. Conditional skips (spec/41_conditional_skip.md). A word of format `XB` written as a number is the encoder's
word; the skip's comparison of two bytes is the comparison of their values. -/

namespace Sys2Proof.Machine

/-- A row's `match` plus `X` and `NN` is the leading nibble followed by the two fields (R61, R66). -/
theorem wordXB_eq_encodeXB (op : BitVec 4) (x : Reg) (nn : Byte) :
    wordXB (op.toNat * 4096) x nn = encodeXB op x nn := by
  apply BitVec.eq_of_toNat_eq
  have := op.isLt; have := x.isLt; have := nn.isLt
  rw [wordXB, BitVec.toNat_ofNat, encodeXB_toNat]; omega

/-! ### A skip decided by comparing two bytes -/

theorem State.skipIf_beq_pc (s : State) (a b : Byte) :
    (s.skipIf (a == b)).pc = if a.toNat = b.toNat then s.pc + 2 else s.pc := by
  simp only [State.skipIf_pc, beq_iff_eq, BitVec.toNat_inj]

theorem State.skipIf_bne_pc (s : State) (a b : Byte) :
    (s.skipIf (a != b)).pc = if a.toNat = b.toNat then s.pc else s.pc + 2 := by
  simp only [State.skipIf_pc, bne_iff_ne, ne_eq, ite_not, BitVec.toNat_inj]

/-! ### The skips on an immediate -/

theorem decode_encodeXB_seImm (x : Reg) (nn : Byte) : decode (encodeXB 0x3#4 x nn) = .ok (.seImm x nn) := by
  simp [decode]

theorem decode_encodeXB_sneImm (x : Reg) (nn : Byte) : decode (encodeXB 0x4#4 x nn) = .ok (.sneImm x nn) := by
  simp [decode]

theorem exec_seImm (x : Reg) (nn : Byte) (s : State) :
    exec (.seImm x nn) s = .next (s.skipIf (s.reg x == nn)) := rfl

theorem exec_sneImm (x : Reg) (nn : Byte) (s : State) :
    exec (.sneImm x nn) s = .next (s.skipIf (s.reg x != nn)) := rfl

/-- Settles O30: the words are the encoder's (`wordXB_eq_encodeXB`), and each instruction is a skip decided by comparing
`V[X]` with `NN`, which writes `pc` alone (`onlyChanges_skipIf`). -/
theorem immediateSkips : Obligations.ImmediateSkips := by
  intro x nn s
  have hse : wordXB 0x3000 x nn = encodeXB 0x3#4 x nn := wordXB_eq_encodeXB 0x3#4 x nn
  have hsne : wordXB 0x4000 x nn = encodeXB 0x4#4 x nn := wordXB_eq_encodeXB 0x4#4 x nn
  rw [hse, hsne]
  refine ⟨decode_encodeXB_seImm x nn, decode_encodeXB_sneImm x nn, ?_, ?_⟩
  · exact ⟨_, exec_seImm x nn s, s.skipIf_beq_pc _ _, onlyChanges_skipIf s _⟩
  · exact ⟨_, exec_sneImm x nn s, s.skipIf_bne_pc _ _, onlyChanges_skipIf s _⟩

end Sys2Proof.Machine
end

section
/-! PROOFS. Register load and arithmetic (spec/42_register_alu.md). Each instruction is a write of `V[X]`, which changes
no other part (`onlyChanges_setReg`); what is left is the value written. -/

namespace Sys2Proof.Machine

/-! ### Load and add an immediate -/

theorem decode_encodeXB_ldImm (x : Reg) (nn : Byte) : decode (encodeXB 0x6#4 x nn) = .ok (.ldImm x nn) := by
  simp [decode]

theorem decode_encodeXB_addImm (x : Reg) (nn : Byte) : decode (encodeXB 0x7#4 x nn) = .ok (.addImm x nn) := by
  simp [decode]

theorem exec_ldImm (x : Reg) (nn : Byte) (s : State) : exec (.ldImm x nn) s = .next (s.setReg x nn) := rfl

theorem exec_addImm (x : Reg) (nn : Byte) (s : State) :
    exec (.addImm x nn) s = .next (s.setReg x (s.reg x + nn)) := rfl

/-- Settles O32: the words are the encoder's (`wordXB_eq_encodeXB`), each instruction writes `V[X]` alone, and the sum of
two bytes is their sum modulo 256. -/
theorem immediateLoadAndAdd : Obligations.ImmediateLoadAndAdd := by
  intro x nn s
  have hld : wordXB 0x6000 x nn = encodeXB 0x6#4 x nn := wordXB_eq_encodeXB 0x6#4 x nn
  have hadd : wordXB 0x7000 x nn = encodeXB 0x7#4 x nn := wordXB_eq_encodeXB 0x7#4 x nn
  have hsum : ((s.setReg x (s.reg x + nn)).reg x).toNat = ((s.reg x).toNat + nn.toNat) % 256 := by
    rw [State.reg_setReg_self, BitVec.toNat_add]
  rw [hld, hadd]
  refine ⟨decode_encodeXB_ldImm x nn, decode_encodeXB_addImm x nn, ?_, ?_⟩
  · exact ⟨_, exec_ldImm x nn s, s.reg_setReg_self x nn, onlyChanges_setReg s x nn⟩
  · exact ⟨_, exec_addImm x nn s, hsum, onlyChanges_setReg s x _⟩

end Sys2Proof.Machine
end

section
/-! PROOFS. Index register loads (spec/43_index_and_random.md R120, R123). Both are a write of `I`, which changes no other
part (`onlyChanges_setIndex`). The constraint of R2 puts the font low enough that a glyph address is below 65536. -/

namespace Sys2Proof

theorem Config.wellFormed_iff (c : Config) :
    c.wellFormed = true ↔ c.fontBase + 80 ≤ c.progBase ∧ c.progBase ≤ 4096 ∧ 1 ≤ c.stackDepth := by
  simp [Config.wellFormed, Config.memSize, and_assoc]

end Sys2Proof

namespace Sys2Proof.Machine

theorem decode_encodeA_ldI (nnn : BitVec 12) : decode (encodeA 0xA#4 nnn) = .ok (.ldI nnn) := by
  simp [decode]

theorem decode_encodeXB_ldF (x : Reg) : decode (encodeXB 0xF#4 x 0x29#8) = .ok (.ldF x) := by
  simp [decode, decodeFamilyF]

theorem exec_ldI (nnn : BitVec 12) (s : State) : exec (.ldI nnn) s = .next (s.setIndex (zextAddr nnn)) := rfl

theorem exec_ldF (x : Reg) (s : State) : exec (.ldF x) s = .next (s.setIndex (s.glyphAddr (s.reg x))) := rfl

/-- A glyph address does not wrap: by R2 it is at most `4016 + 255 * 5`. -/
theorem State.glyphAddr_toNat {s : State} (h : s.cfg.wellFormed = true) (v : Byte) :
    (s.glyphAddr v).toNat = s.cfg.fontBase + v.toNat * 5 := by
  obtain ⟨hfont, hprog, -⟩ := s.cfg.wellFormed_iff.1 h
  have hv := v.isLt
  have hbelow : s.cfg.fontBase + v.toNat * 5 < 2 ^ 16 := by omega
  rw [State.glyphAddr, BitVec.toNat_ofNat, Nat.mod_eq_of_lt hbelow]

/-- Settles O37: the words are the encoder's (`wordA_eq_encodeA`, `wordXB_eq_encodeXB`), each instruction writes `I` alone,
and the glyph address does not wrap (`State.glyphAddr_toNat`). -/
theorem indexLoads : Obligations.IndexLoads := by
  intro x nnn s
  have hldI : wordA 0xA000 nnn = encodeA 0xA#4 nnn := wordA_eq_encodeA 0xA#4 nnn
  have hldF : wordXB 0xF000 x 0x29 = encodeXB 0xF#4 x 0x29#8 := wordXB_eq_encodeXB 0xF#4 x 0x29#8
  rw [hldI, hldF]
  refine ⟨decode_encodeA_ldI nnn, decode_encodeXB_ldF x, ?_, ?_⟩
  · exact ⟨_, exec_ldI nnn s, zextAddr_toNat nnn, onlyChanges_setIndex s _⟩
  · exact ⟨_, exec_ldF x s, onlyChanges_setIndex s _, fun hwf => State.glyphAddr_toNat hwf (s.reg x)⟩

end Sys2Proof.Machine
end

section
/-! PROOFS. Reset with a program image (spec/70_reset_and_hazards.md R201, R202, R205). The image is one block written
over the memory of an empty reset. By R2 the font ends below `PROG_BASE`, so the two regions do not meet and an address
past a short image reads 0. -/

namespace Sys2Proof

/-- The unlisted byte in the form of R201's first and last case. -/
theorem Config.resetByte_eq (c : Config) (a : Nat) :
    c.resetByte a =
      if c.fontBase ≤ a ∧ a ≤ c.fontBase + 79 then c.fontData.toList.getD (a - c.fontBase) 0 else 0 := by
  unfold Config.resetByte
  by_cases h : c.fontBase ≤ a ∧ a < c.fontBase + 80
  · have hglyph : a - c.fontBase < 80 := by omega
    rw [dif_pos h, if_pos (by omega)]
    simp [List.getD_eq_getElem?_getD, hglyph]
  · rw [dif_neg h, if_neg (by omega)]

theorem Config.resetByte_eq_zero {c : Config} {a : Nat} (h : c.fontBase + 80 ≤ a) : c.resetByte a = 0 :=
  dif_neg (by omega)

end Sys2Proof

namespace Sys2Proof.Machine

/-! ### The parts of the state after a reset -/

@[simp] theorem hostReset_cfg (rom : List Byte) (s : State) : (hostReset rom s).cfg = s.cfg := by
  unfold hostReset; split <;> rfl

@[simp] theorem hostReset_pc (rom : List Byte) (s : State) :
    (hostReset rom s).pc = BitVec.ofNat 16 s.cfg.progBase := by
  unfold hostReset; split <;> rfl

@[simp] theorem hostReset_disp (rom : List Byte) (s : State) : (hostReset rom s).disp = clearedDisplay := by
  unfold hostReset; split <;> rfl

theorem hostReset_mem {rom : List Byte} {s : State} (h : rom.length ≤ s.cfg.maxRom) :
    (hostReset rom s).mem = Memory.writeBlock s.cfg [] s.cfg.progBase rom := by
  rw [hostReset, if_pos h]; rfl

section
variable {rom : List Byte} {s : State} (hwf : s.cfg.wellFormed = true) (hrom : rom.length ≤ s.cfg.maxRom)
include hwf

theorem hostReset_pc_toNat : (hostReset rom s).pc.toNat = s.cfg.progBase := by
  obtain ⟨-, hprog, -⟩ := s.cfg.wellFormed_iff.1 hwf
  have hbelow : s.cfg.progBase < 2 ^ 16 := by omega
  rw [hostReset_pc, BitVec.toNat_ofNat, Nat.mod_eq_of_lt hbelow]

include hrom

/-! ### The bytes after a successful reset -/

theorem hostReset_byteAt (a : Nat) :
    (hostReset rom s).byteAt a =
      if s.cfg.progBase ≤ a ∧ a < s.cfg.progBase + rom.length then rom.getD (a - s.cfg.progBase) 0
      else s.cfg.resetByte a := by
  obtain ⟨-, hprog, -⟩ := s.cfg.wellFormed_iff.1 hwf
  have hfits : s.cfg.progBase + rom.length ≤ Config.memSize := by
    unfold Config.maxRom Config.memSize at hrom; unfold Config.memSize; omega
  rw [State.byteAt, hostReset_cfg, hostReset_mem hrom, Memory.read_writeBlock rom (Memory.nil_wf s.cfg) hfits]
  rfl

/-- From `PROG_BASE` up, memory is the image continued by zeros: the font lies below. -/
theorem hostReset_byteAt_progBase_add (k : Nat) : (hostReset rom s).byteAt (s.cfg.progBase + k) = rom.getD k 0 := by
  obtain ⟨hfont, -, -⟩ := s.cfg.wellFormed_iff.1 hwf
  rw [hostReset_byteAt hwf hrom]
  by_cases hk : k < rom.length
  · rw [if_pos (by omega), Nat.add_sub_cancel_left]
  · rw [if_neg (by omega), Config.resetByte_eq_zero (by omega), List.getD_eq_default rom 0 (by omega)]

end

/-- Settles O21: the image's block over the unlisted bytes (`hostReset_byteAt`); the font's case comes first in R201, and
by R2 no address is in both regions. -/
theorem resetMemoryContents : Obligations.ResetMemoryContents := by
  intro rom s a hwf hrom ha
  obtain ⟨hfont, -, -⟩ := s.cfg.wellFormed_iff.1 hwf
  rw [State.memRead_in _ ha, hostReset_byteAt hwf hrom, Config.resetByte_eq]
  by_cases hglyph : s.cfg.fontBase ≤ a ∧ a ≤ s.cfg.fontBase + 79
  · have himage : ¬ (s.cfg.progBase ≤ a ∧ a < s.cfg.progBase + rom.length) := by omega
    rw [if_neg himage, if_pos hglyph, if_pos hglyph]
  · rw [if_neg hglyph, if_neg hglyph]

/-- Settles O22: `pc` is `PROG_BASE` (`hostReset_pc_toNat`), the two bytes fetched there are the image's first two
(`hostReset_byteAt_progBase_add`), and the display is the cleared one. -/
theorem resetEntryAndDisplay : Obligations.ResetEntryAndDisplay := by
  intro rom s hwf hrom
  have hpc : (hostReset rom s).pc.toNat = s.cfg.progBase := hostReset_pc_toNat hwf
  refine ⟨hpc, fun hfetchable => ?_, fun x y => ?_⟩
  · have hhi : (hostReset rom s).byteAt s.cfg.progBase = rom.getD 0 0 := hostReset_byteAt_progBase_add hwf hrom 0
    have hlo : (hostReset rom s).byteAt (s.cfg.progBase + 1) = rom.getD 1 0 := hostReset_byteAt_progBase_add hwf hrom 1
    refine ⟨_, fetch_ok (hpc.trans_le hfetchable), ?_⟩
    rw [wordOfBytes_toNat, hpc, hhi, hlo]
  · rw [hostReset_disp, pixel_cleared]

end Sys2Proof.Machine
end

section
/-! PROOFS. The encoder and the decoder (spec/30_encoding.md). `decode_encode` is the fact of R69 for every well-formed
instruction; the words that the statements write as numbers are the encoder's words, so it decodes them too. -/

namespace Sys2Proof

/-! ### Decoding gives back what was encoded -/

/-- The decoder reads a well-formed instruction from its canonical word (R66, R69). -/
theorem decode_encode {i : Instr} (h : i.wellFormed = true) : decode (encode i) = .ok i := by
  cases i with
  | drw x y n =>
    have hn : n < 16 := by simpa [Instr.wellFormed] using h
    simp [decode, encode, Nat.mod_eq_of_lt hn]
  | _ => simp [decode, encode, decodeFamily0, decodeFamily8, decodeFamilyE, decodeFamilyF]

/-- A word is put together again from its high and its low byte (R60). -/
theorem wordOfBytes_extract (w : Word) : wordOfBytes (w.extractLsb' 8 8) (w.extractLsb' 0 8) = w := by
  have hw := w.isLt
  apply BitVec.eq_of_toNat_eq
  rw [wordOfBytes, append_toNat, BitVec.extractLsb'_toNat, BitVec.extractLsb'_toNat, Nat.shiftRight_eq_div_pow]
  simp only [Nat.shiftRight_zero]; omega

/-- Two bytes at the front of a stream decode as their word does. -/
theorem decodeBytes_cons_cons {hi lo : Byte} {i : Instr} (h : decode (wordOfBytes hi lo) = .ok i) (rest : List Byte) :
    decodeBytes (hi :: lo :: rest) = .ok (i, rest) := by
  simp only [decodeBytes, h]

/-- Settles O1: the two bytes are the halves of the canonical word (`wordOfBytes_extract`), which decodes to the
instruction (`decode_encode`). -/
theorem decodeInvertsEncode : Obligations.DecodeInvertsEncode := by
  intro i rest hwf
  have hword : decode (wordOfBytes ((encode i).extractLsb' 8 8) ((encode i).extractLsb' 0 8)) = .ok i := by
    rw [wordOfBytes_extract, decode_encode hwf]
  exact decodeBytes_cons_cons hword rest

/-! ### The rows exclude each other -/

/-- A word that matches two rows makes the rows' patterns agree on the bits that both masks keep. -/
theorem patterns_agree_of_match {w m p m' p' : Word} (h : w &&& m = p) (h' : w &&& m' = p') : p &&& m' = p' &&& m := by
  subst h; subst h'
  rw [BitVec.and_assoc, BitVec.and_assoc, BitVec.and_comm m m']

/-- Any two rows differ in a bit that both masks keep. -/
theorem opcodeMap_patterns_disagree : opcodeMap.Pairwise fun p q => p.pattern &&& q.mask ≠ q.pattern &&& p.mask := by
  decide

/-- Settles O3: two rows differ in a bit that both masks keep, so no word has both patterns. -/
theorem opcodeRowsExclusive : Obligations.OpcodeRowsExclusive :=
  opcodeMap_patterns_disagree.imp fun hne _ hmatch => hne (patterns_agree_of_match hmatch.1 hmatch.2)

/-! ### What is refused -/

section
variable {w : Word} {e : DecodeError}

theorem decodeFamily0_eq_error :
    decodeFamily0 w = .error e ↔ e = .unknownInstruction w ∧ w.toNat % 256 ∉ [0xE0, 0xEE] := by
  rw [← nnField_toNat]; unfold decodeFamily0
  split <;> simp_all [eq_comm (b := e)]

theorem decodeFamily8_eq_error :
    decodeFamily8 w = .error e ↔
      e = .unknownInstruction w ∧ w.toNat % 16 ∈ [0x8, 0x9, 0xA, 0xB, 0xC, 0xD, 0xF] := by
  have hn : w.toNat % 16 < 16 := Nat.mod_lt _ (by decide)
  rw [← nField_toNat] at hn ⊢; unfold decodeFamily8
  split
  case h_10 => simp_all [eq_comm (b := e)]; omega
  all_goals simp [*]

theorem decodeFamilyE_eq_error :
    decodeFamilyE w = .error e ↔ e = .unknownInstruction w ∧ w.toNat % 256 ∉ [0x9E, 0xA1] := by
  rw [← nnField_toNat]; unfold decodeFamilyE
  split <;> simp_all [eq_comm (b := e)]

theorem decodeFamilyF_eq_error :
    decodeFamilyF w = .error e ↔
      e = .unknownInstruction w ∧ w.toNat % 256 ∉ [0x07, 0x0A, 0x15, 0x18, 0x1E, 0x29, 0x33, 0x55, 0x65] := by
  rw [← nnField_toNat]; unfold decodeFamilyF
  split <;> simp_all [eq_comm (b := e)]

/-- The illegal words of R67, family by family. -/
def IllegalWord (w : Word) : Prop :=
  (w.toNat / 4096 = 0 ∧ w.toNat % 256 ∉ [0xE0, 0xEE]) ∨
  (w.toNat / 4096 = 8 ∧ w.toNat % 16 ∈ [0x8, 0x9, 0xA, 0xB, 0xC, 0xD, 0xF]) ∨
  (w.toNat / 4096 = 0xE ∧ w.toNat % 256 ∉ [0x9E, 0xA1]) ∨
  (w.toNat / 4096 = 0xF ∧ w.toNat % 256 ∉ [0x07, 0x0A, 0x15, 0x18, 0x1E, 0x29, 0x33, 0x55, 0x65])

/-- The decoder refuses exactly the illegal words, each with the word itself. -/
theorem decode_eq_error : decode w = .error e ↔ e = .unknownInstruction w ∧ IllegalWord w := by
  have hop : w.toNat / 4096 < 16 := by have := w.isLt; omega
  unfold IllegalWord
  rw [← opField_toNat] at hop ⊢
  unfold decode
  split
  case h_1 h => simp only [h, decodeFamily0_eq_error]; simp
  case h_9 h => simp only [h, decodeFamily8_eq_error]; simp
  case h_15 h => simp only [h, decodeFamilyE_eq_error]; simp
  case h_16 h => simp only [h, decodeFamilyF_eq_error]; simp
  case h_17 => simp only [imp_false] at *; omega
  -- The 12 families without a selector refuse no word.
  all_goals simp [*]

end

/-- Settles O4: `decode_eq_error` in both parts. -/
theorem illegalWordsAreRefused : Obligations.IllegalWordsAreRefused := fun _ =>
  ⟨fun _ h => (decode_eq_error.1 h).1, decode_eq_error.trans (and_iff_right rfl)⟩

end Sys2Proof

namespace Sys2Proof.Machine

/-! ### Words of two registers and a nibble, written as numbers -/

/-- A row's `match` with the selector `n`, plus `X` and `Y` (R61, R66). -/
theorem wordXYN_eq_encodeXYN (op n : BitVec 4) (x y : Reg) :
    wordXYN (op.toNat * 4096 + n.toNat) x y 0 = encodeXYN op x y n := by
  apply BitVec.eq_of_toNat_eq
  have := op.isLt; have := n.isLt; have := x.isLt; have := y.isLt
  rw [wordXYN, BitVec.toNat_ofNat, encodeXYN_toNat, Fin.val_zero]; omega

/-- A row's `match` plus `X`, `Y` and a nibble that is no selector. -/
theorem wordXYN_nibble_eq_encodeXYN (op : BitVec 4) (x y : Reg) (n : Fin 16) :
    wordXYN (op.toNat * 4096) x y n = encodeXYN op x y (BitVec.ofNat 4 n.val) := by
  apply BitVec.eq_of_toNat_eq
  have := op.isLt; have := n.isLt; have := x.isLt; have := y.isLt
  rw [wordXYN, BitVec.toNat_ofNat, encodeXYN_toNat, BitVec.toNat_ofNat]; omega

theorem decode_wordXB_cls (x : Reg) : decode (wordXB 0x0000 x 0xE0) = .ok .cls := by
  rw [show wordXB 0x0000 x 0xE0 = encodeXB 0x0#4 x 0xE0#8 from wordXB_eq_encodeXB 0x0#4 x 0xE0#8]
  simp [decode, decodeFamily0]

theorem decode_wordXB_ret (x : Reg) : decode (wordXB 0x0000 x 0xEE) = .ok .ret := by
  rw [show wordXB 0x0000 x 0xEE = encodeXB 0x0#4 x 0xEE#8 from wordXB_eq_encodeXB 0x0#4 x 0xEE#8]
  simp [decode, decodeFamily0]

theorem decode_wordXYN_seReg (x y : Reg) (n : Fin 16) : decode (wordXYN 0x5000 x y n) = .ok (.seReg x y) := by
  rw [show wordXYN 0x5000 x y n = _ from wordXYN_nibble_eq_encodeXYN 0x5#4 x y n]
  simp [decode]

theorem decode_wordXYN_sneReg (x y : Reg) (n : Fin 16) : decode (wordXYN 0x9000 x y n) = .ok (.sneReg x y) := by
  rw [show wordXYN 0x9000 x y n = _ from wordXYN_nibble_eq_encodeXYN 0x9#4 x y n]
  simp [decode]

/-- A word equal to an instruction's canonical word decodes to it. -/
theorem decode_of_eq_encode {w : Word} (i : Instr) (hw : w = encode i) (hwf : i.wellFormed = true) :
    decode w = .ok i := by
  rw [hw, decode_encode hwf]

theorem decode_wordXYN_shr (x y : Reg) : decode (wordXYN 0x8006 x y 0) = .ok (.shr x y) :=
  decode_of_eq_encode _ (wordXYN_eq_encodeXYN 0x8#4 0x6#4 x y) rfl

theorem decode_wordXYN_shl (x y : Reg) : decode (wordXYN 0x800E x y 0) = .ok (.shl x y) :=
  decode_of_eq_encode _ (wordXYN_eq_encodeXYN 0x8#4 0xE#4 x y) rfl

/-- Settles O5: each word is decoded by its own lemma, for every value of the bits that select nothing. -/
theorem ignoredBitsSelectNothing : Obligations.IgnoredBitsSelectNothing := fun x y n =>
  ⟨decode_wordXB_cls x, decode_wordXB_ret x, decode_wordXYN_seReg x y n, decode_wordXYN_sneReg x y n,
    decode_wordXYN_shr x y, decode_wordXYN_shl x y⟩

/-- Settles O6: closed words, which the decoder runs. -/
theorem writtenWordsDecode : Obligations.WrittenWordsDecode := by
  unfold Obligations.WrittenWordsDecode; decide

end Sys2Proof.Machine
end

section
/-! PROOFS. What an instruction does, said once (spec/60_exceptions.md R171, R172): it raises what the fault table gives
for it and writes nothing else, or it has its effect. Every later proof about `exec` cites `exec_eq`, or one of its two
halves, and then a law about `effect`. -/

namespace Sys2Proof.Machine

/-! ### The two ways an instruction ends -/

/-- The canvas of `DRW`: the display drawn on, and the collision (R132). -/
def State.drawn (s : State) (x y : Reg) (n : Nat) : Canvas :=
  drawRows (s.disp, false) ((s.reg x).toNat % 64) ((s.reg y).toNat % 32) (s.spriteRows n)

/-- What an instruction writes when it does not raise. -/
def effect : Instr → State → State
  | .cls, s => s.setDisp clearedDisplay
  | .ret, s => s.popToPc
  | .jp nnn, s => s.setPc (zextAddr nnn)
  | .call nnn, s => (s.push s.pc).setPc (zextAddr nnn)
  | .seImm x nn, s => s.skipIf (s.reg x == nn)
  | .sneImm x nn, s => s.skipIf (s.reg x != nn)
  | .seReg x y, s => s.skipIf (s.reg x == s.reg y)
  | .sneReg x y, s => s.skipIf (s.reg x != s.reg y)
  | .ldImm x nn, s => s.setReg x nn
  | .addImm x nn, s => s.setReg x (s.reg x + nn)
  | .ldReg x y, s => s.setReg x (s.reg y)
  | .orReg x y, s => s.setReg x (s.reg x ||| s.reg y)
  | .andReg x y, s => s.setReg x (s.reg x &&& s.reg y)
  | .xorReg x y, s => s.setReg x (s.reg x ^^^ s.reg y)
  | .addReg x y, s => s.setResultThenFlag x (s.reg x + s.reg y) (carryFlag (s.reg x) (s.reg y))
  | .sub x y, s => s.setResultThenFlag x (s.reg x - s.reg y) (notBorrowFlag (s.reg x) (s.reg y))
  | .subn x y, s => s.setResultThenFlag x (s.reg y - s.reg x) (notBorrowFlag (s.reg y) (s.reg x))
  | .shr x y, s => s.setResultThenFlag x (s.shiftSource x y >>> 1) (shiftedOutRight (s.shiftSource x y))
  | .shl x y, s => s.setResultThenFlag x (s.shiftSource x y <<< 1) (shiftedOutLeft (s.shiftSource x y))
  | .ldI nnn, s => s.setIndex (zextAddr nnn)
  | .jpV0 nnn, s => s.setPc (BitVec.ofNat 16 ((s.reg 0).toNat + nnn.toNat))
  | .rnd x nn, s => s.setReg x (s.input.rand &&& nn)
  | .drw x y n, s => (s.setDisp (s.drawn x y n).1).setReg VF (flagByte (s.drawn x y n).2)
  | .skp x, s => s.skipIf (s.keyDown (s.reg x).toNat == true)
  | .sknp x, s => s.skipIf (s.keyDown (s.reg x).toNat == false)
  | .ldVxDt x, s => s.setReg x s.dt
  | .ldDtVx x, s => s.setDt (s.reg x)
  | .ldStVx x, s => s.setSt (s.reg x)
  | .addI x, s =>
    let sum := s.setIndex (BitVec.ofNat 16 (s.index.toNat + (s.reg x).toNat))
    if indexExceeds s.index (s.reg x) then sum.setReg VF 1 else sum
  | .ldVxK x, s =>
    match selectKey s.cfg s.input.keys with
    | none   => s.setPc (s.pc - 2)
    | some k => s.setReg x (BitVec.ofNat 8 k.val)
  | .ldF x, s => s.setIndex (s.glyphAddr (s.reg x))
  | .ldB x, s => s.storeBlock (s.indexed 0) (bcdDigits (s.reg x))
  | .stRegs x, s => s.storeBlock (s.indexed 0) (s.regsUpTo x)
  | .ldRegs x, s => s.loadRegsUpTo x

/-- The state with another latch value and nothing else changed, or the alternative if there is no fault. -/
def State.raisedOr (s : State) (f : Option FaultLatch) (t : State) : State :=
  f.elim t fun latch => { s with fault := latch }

theorem rangeFault_eq_none {s : State} {n : Nat} : rangeFault s n = none ↔ n = 0 ∨ s.index.toNat + n ≤ 4096 := by
  simp only [rangeFault, ite_eq_right_iff, reduceCtorEq, imp_false]; omega

theorem rangeFault_eq_some {s : State} {n : Nat} (h0 : n ≠ 0) (h : 4096 < s.index.toNat + n) :
    rangeFault s n = some ⟨.outOfRange, .mem, BitVec.ofNat 16 (max s.index.toNat 4096)⟩ :=
  if_pos ⟨by omega, by omega⟩

theorem faultOf_ret_of_ne {s : State} (h : s.sp ≠ 0) : faultOf s .ret = none := if_neg h

theorem faultOf_call_of_ne {nnn : BitVec 12} {s : State} (h : s.sp ≠ s.cfg.stackDepth) :
    faultOf s (.call nnn) = none := if_neg h

/-- The range test of a block raises what R171 says. -/
theorem onBlock_eq (s : State) (n : Nat) (e : State → State) :
    onBlock (s.indexed 0) n e s = .next (s.raisedOr (rangeFault s n) (e s)) := by
  by_cases h : n = 0 ∨ s.index.toNat + n ≤ 4096
  · rw [onBlock_in (base := s.indexed 0) e s h, rangeFault_eq_none.2 h]; rfl
  · push Not at h
    obtain ⟨h0, hout⟩ := h
    rw [onBlock_out (base := s.indexed 0) e s h0 hout, rangeFault_eq_some h0 hout]; rfl

theorem keySkip_eq (x : Reg) (b : Bool) (s : State) :
    keySkip x b s = s.raisedOr (faultOf s (.skp x)) (s.skipIf (s.keyDown (s.reg x).toNat == b)) := by
  simp only [keySkip, faultOf]
  split <;> rfl

/-- An instruction raises exactly what the fault table gives, or has its effect. -/
theorem exec_eq (i : Instr) (s : State) : exec i s = .next (s.raisedOr (faultOf s i) (effect i s)) := by
  cases i with
  | ret => simp only [exec, execRet, faultOf]; split <;> rfl
  | call nnn => simp only [exec, execCall, faultOf]; split <;> rfl
  | skp x => exact congrArg _ (keySkip_eq x true s)
  | sknp x => exact congrArg _ (keySkip_eq x false s)
  | drw x y n => exact onBlock_eq s n (effect (.drw x y n))
  | ldB x => exact onBlock_eq s 3 (effect (.ldB x))
  | stRegs x => exact onBlock_eq s (x.val + 1) (effect (.stRegs x))
  | ldRegs x => exact onBlock_eq s (x.val + 1) (effect (.ldRegs x))
  | _ => rfl

theorem exec_of_fault {i : Instr} {s : State} {f : FaultLatch} (h : faultOf s i = some f) :
    exec i s = .next { s with fault := f } := by
  rw [exec_eq, h]; rfl

theorem exec_of_no_fault {i : Instr} {s : State} (h : faultOf s i = none) : exec i s = .next (effect i s) := by
  rw [exec_eq, h]; rfl

/-- What an answer of `exec` can be. -/
theorem exec_cases {i : Instr} {s t : State} (h : exec i s = .next t) :
    (∃ f, faultOf s i = some f ∧ t = { s with fault := f }) ∨ (faultOf s i = none ∧ t = effect i s) := by
  cases hf : faultOf s i with
  | none => exact .inr ⟨rfl, Host.Outcome.next.inj (h.symm.trans (exec_of_no_fault hf))⟩
  | some f => exact .inl ⟨f, rfl, Host.Outcome.next.inj (h.symm.trans (exec_of_fault hf))⟩

/-! ### The latch values of the fault table -/

theorem rangeFault_legal {s : State} {n : Nat} {f : FaultLatch} (h : rangeFault s n = some f) :
    f.code ≠ .none ∧ f.legal := by
  have hindex := s.index.isLt
  unfold rangeFault at h
  split at h
  · obtain rfl := Option.some.inj h
    refine ⟨by simp, ?_⟩
    show 4096 ≤ (BitVec.ofNat 16 (max s.index.toNat 4096)).toNat
    rw [BitVec.toNat_ofNat]; omega
  · cases h

/-- A key number above 15 is at most 255. -/
theorem keyFault_legal {b : Byte} (h : 15 < b.toNat) :
    FaultLatch.legal ⟨.outOfRange, .key, BitVec.ofNat 16 b.toNat⟩ := by
  have hb := b.isLt
  show 16 ≤ (BitVec.ofNat 16 b.toNat).toNat ∧ (BitVec.ofNat 16 b.toNat).toNat ≤ 255
  rw [BitVec.toNat_ofNat]; omega

/-- The fault table gives a fault of the machine, with a value R171 lists. -/
theorem faultOf_legal {i : Instr} {s : State} {f : FaultLatch} (h : faultOf s i = some f) : f.code ≠ .none ∧ f.legal := by
  cases i with
  | drw x y n => exact rangeFault_legal h
  | ldB x => exact rangeFault_legal h
  | stRegs x | ldRegs x => exact rangeFault_legal h
  | skp x | sknp x =>
    simp only [faultOf] at h
    split at h
    · next hk => obtain rfl := Option.some.inj h; exact ⟨by simp, keyFault_legal hk⟩
    · cases h
  | ret | call nnn =>
    simp only [faultOf] at h
    split at h
    · obtain rfl := Option.some.inj h; exact ⟨by simp, rfl, rfl⟩
    · cases h
  | _ => cases h

/-! ### The frame of an effect -/

theorem not_mem_partsUpTo {x : Reg} {p : Part} (h : ∀ r, p ≠ .reg r) : p ∉ partsUpTo x := by
  simp only [partsUpTo, List.mem_map, not_exists, not_and]
  exact fun r _ e => h r e.symm

/-- `ADD I, Vx` past 0x0FFF (R122). -/
theorem effect_addI_exceeds {x : Reg} {s : State} (h : indexExceeds s.index (s.reg x) = true) :
    effect (.addI x) s = (s.setIndex (BitVec.ofNat 16 (s.index.toNat + (s.reg x).toNat))).setReg VF 1 := if_pos h

/-- `ADD I, Vx` up to 0x0FFF: no flag is written (R122). -/
theorem effect_addI_within {x : Reg} {s : State} (h : ¬ indexExceeds s.index (s.reg x) = true) :
    effect (.addI x) s = s.setIndex (BitVec.ofNat 16 (s.index.toNat + (s.reg x).toNat)) := if_neg h

theorem onlyChanges_effect_addI (x : Reg) (s : State) : OnlyChanges [.index, .reg VF] s (effect (.addI x) s) := by
  have hsum := (onlyChanges_setIndex s (BitVec.ofNat 16 (s.index.toNat + (s.reg x).toNat))).mono
    (qs := [.index, .reg VF]) (by simp)
  by_cases h : indexExceeds s.index (s.reg x) = true
  · rw [effect_addI_exceeds h]
    exact hsum.trans ((onlyChanges_setReg _ VF 1).mono (by simp))
  · rw [effect_addI_within h]
    exact hsum

theorem effect_ldVxK_wait {x : Reg} {s : State} (h : s.input.keys = 0) : effect (.ldVxK x) s = s.setPc (s.pc - 2) := by
  simp only [effect, selectKey_eq_none.2 h]

theorem effect_ldVxK_key {x : Reg} {s : State} {k : Fin 16} (h : selectKey s.cfg s.input.keys = some k) :
    effect (.ldVxK x) s = s.setReg x (BitVec.ofNat 8 k.val) := by
  simp only [effect, h]

theorem onlyChanges_effect_ldVxK (x : Reg) (s : State) : OnlyChanges [.reg x, .pc] s (effect (.ldVxK x) s) := by
  cases hk : selectKey s.cfg s.input.keys with
  | none =>
    rw [effect_ldVxK_wait (selectKey_eq_none.1 hk)]
    exact (onlyChanges_setPc s _).mono (by simp)
  | some k =>
    rw [effect_ldVxK_key hk]
    exact (onlyChanges_setReg s x _).mono (by simp)

theorem onlyChanges_effect_call (nnn : BitVec 12) (s : State) :
    OnlyChanges [.stack, .sp, .pc] s (effect (.call nnn) s) :=
  ((onlyChanges_push s s.pc).mono (by simp)).trans ((onlyChanges_setPc _ (zextAddr nnn)).mono (by simp))

theorem onlyChanges_effect_drw (x y : Reg) (n : Nat) (s : State) :
    OnlyChanges [.disp, .reg VF] s (effect (.drw x y n) s) :=
  ((onlyChanges_setDisp s (s.drawn x y n).1).mono (by simp)).trans ((onlyChanges_setReg _ VF _).mono (by simp))

/-- An effect writes only the parts the instruction's rule names, and never the latch. -/
theorem onlyChanges_effect (i : Instr) (s : State) : OnlyChanges ((mayWrite i).filter (· != .fault)) s (effect i s) := by
  cases i with
  | cls => exact onlyChanges_setDisp s _
  | ret => exact onlyChanges_popToPc s
  | jp nnn | jpV0 nnn => exact onlyChanges_setPc s _
  | call nnn => exact onlyChanges_effect_call nnn s
  | seImm x nn | sneImm x nn => exact onlyChanges_skipIf s _
  | seReg x y | sneReg x y => exact onlyChanges_skipIf s _
  | ldImm x nn | addImm x nn | rnd x nn => exact onlyChanges_setReg s x _
  | ldReg x y | orReg x y | andReg x y | xorReg x y => exact onlyChanges_setReg s x _
  | addReg x y | sub x y | subn x y | shr x y | shl x y => exact onlyChanges_setResultThenFlag s x _ _
  | ldI nnn => exact onlyChanges_setIndex s _
  | drw x y n => exact onlyChanges_effect_drw x y n s
  | skp x | sknp x => exact onlyChanges_skipIf s _
  | ldVxDt x => exact onlyChanges_setReg s x _
  | ldDtVx x => exact onlyChanges_setDt s _
  | ldStVx x => exact onlyChanges_setSt s _
  | addI x => exact onlyChanges_effect_addI x s
  | ldVxK x => exact onlyChanges_effect_ldVxK x s
  | ldF x => exact onlyChanges_setIndex s _
  | ldB x | stRegs x => exact onlyChanges_storeBlock s _ _
  | ldRegs x =>
    refine (onlyChanges_loadRegsUpTo s x).mono fun p hp => List.mem_filter.2 ⟨List.mem_cons_of_mem _ hp, ?_⟩
    exact bne_iff_ne.2 fun e => not_mem_partsUpTo (by simp) (e ▸ hp)

theorem effect_fault (i : Instr) (s : State) : (effect i s).fault = s.fault :=
  (onlyChanges_effect i s).1 .fault (by simp)

theorem effect_cfg (i : Instr) (s : State) : (effect i s).cfg = s.cfg := by
  obtain ⟨-, hcfg, -, -⟩ := onlyChanges_effect i s
  exact hcfg

theorem effect_inputs (i : Instr) (s : State) : (effect i s).inputs = s.inputs := by
  obtain ⟨-, -, hinputs, -⟩ := onlyChanges_effect i s
  exact hinputs

/-- A part that the instruction's rule does not name is as before. -/
theorem unchanged_effect {i : Instr} {p : Part} (h : p ∉ mayWrite i) (s : State) : Unchanged s (effect i s) p :=
  (onlyChanges_effect i s).1 p fun hp => h (List.mem_filter.1 hp).1

/-- The latch is named by the rule of every instruction that can raise. -/
theorem fault_mem_mayWrite {i : Instr} {s : State} {f : FaultLatch} (h : faultOf s i = some f) :
    Part.fault ∈ mayWrite i := by
  cases i with
  | ret | call nnn => simp [mayWrite]
  | drw x y n => simp [mayWrite]
  | skp x | sknp x | ldB x | stRegs x | ldRegs x => simp [mayWrite]
  | _ => cases h

theorem onlyChanges_fault (s : State) (f : FaultLatch) : OnlyChanges [.fault] s { s with fault := f } := by
  refine ⟨fun p hp => ?_, rfl, rfl, rfl⟩
  cases p with
  | fault => simp at hp
  | mem => exact fun _ => rfl
  | disp => exact fun _ _ => rfl
  | _ => rfl

theorem onlyChanges_exec {i : Instr} {s t : State} (h : exec i s = .next t) : OnlyChanges (mayWrite i) s t := by
  obtain ⟨f, hf, rfl⟩ | ⟨-, rfl⟩ := exec_cases h
  · exact (onlyChanges_fault s f).mono (by simpa using fault_mem_mayWrite hf)
  · exact (onlyChanges_effect i s).mono fun p hp => (List.mem_filter.1 hp).1

/-! ### The statements about the whole instruction set -/

/-- Settles O15: the two ends of `exec_eq`; an effect keeps the latch (`effect_fault`). -/
theorem instructionsRaiseTheFaultTable : Obligations.InstructionsRaiseTheFaultTable := by
  intro i s
  cases hf : faultOf s i with
  | none => exact ⟨_, exec_of_no_fault hf, effect_fault i s, fun f e => by cases e⟩
  | some f => exact ⟨_, exec_of_fault hf, rfl, fun g e => by rw [Option.some.inj e]⟩

@[simp] theorem length_regsUpTo (s : State) (x : Reg) : (s.regsUpTo x).length = x.val + 1 := by
  have hx := x.isLt
  simp only [State.regsUpTo, List.length_take, Vector.length_toList]; omega

/-- A store's instruction keeps the bytes outside its block, whether it raises or not. -/
theorem memKeptOutside_exec {i : Instr} {s t : State} {n : Nat} (h : exec i s = .next t)
    (heffect : MemKeptOutside s.index.toNat n s (effect i s)) : MemKeptOutside s.index.toNat n s t := by
  obtain ⟨f, -, rfl⟩ | ⟨-, rfl⟩ := exec_cases h
  · exact fun a _ => rfl
  · exact heffect

theorem memKeptOutside_effect_ldB (x : Reg) (s : State) :
    MemKeptOutside s.index.toNat 3 s (effect (.ldB x) s) :=
  memKeptOutside_storeBlock s (s.indexed 0) (bcdDigits (s.reg x))

theorem memKeptOutside_effect_stRegs (x : Reg) (s : State) :
    MemKeptOutside s.index.toNat (x.val + 1) s (effect (.stRegs x) s) := by
  have h := memKeptOutside_storeBlock s (s.indexed 0) (s.regsUpTo x)
  rwa [length_regsUpTo] at h

/-- Settles O16: the frame of every instruction (`onlyChanges_exec`) and of the two stores' blocks. -/
theorem instructionsWriteOnlyTheirParts : Obligations.InstructionsWriteOnlyTheirParts := by
  intro i s t h
  refine ⟨onlyChanges_exec h, ?_, ?_⟩
  · rintro x rfl; exact memKeptOutside_exec h (memKeptOutside_effect_ldB x s)
  · rintro x rfl; exact memKeptOutside_exec h (memKeptOutside_effect_stRegs x s)

theorem flagByte_zero_or_one (b : Bool) : flagByte b = 0 ∨ flagByte b = 1 := by cases b <;> decide

theorem reg_VF_setResultThenFlag (s : State) (x : Reg) (a f : Byte) : (s.setResultThenFlag x a f).reg VF = f := by
  rw [State.reg_setResultThenFlag, if_pos rfl]

/-- Settles O17: a flag writer's `VF` is a flag byte; any other instruction has `VF` in its frame (`onlyChanges_exec`)
unless it is `V[X]`. -/
theorem flagWritersOfVF : Obligations.FlagWritersOfVF := by
  intro i s t h
  have hkept : Part.reg VF ∉ mayWrite i → t.reg VF = s.reg VF := fun hp => (onlyChanges_exec h).1 _ hp
  cases i with
  | addReg x y | sub x y | subn x y | shr x y | shl x y =>
    obtain rfl := Host.Outcome.next.inj h
    simp only [reg_VF_setResultThenFlag]
    exact flagByte_zero_or_one _
  | drw x y n =>
    intro hf
    obtain rfl := Host.Outcome.next.inj (h.symm.trans (exec_of_no_fault hf))
    simp only [effect, State.reg_setReg_self]
    exact flagByte_zero_or_one _
  | addI x =>
    obtain rfl := Host.Outcome.next.inj (h.symm.trans (exec_of_no_fault rfl))
    by_cases hx : indexExceeds s.index (s.reg x) = true
    · rw [effect_addI_exceeds hx]; exact .inl (State.reg_setReg_self _ _ _)
    · rw [effect_addI_within hx]; exact .inr rfl
  | ldRegs x => exact fun hx => hkept (by simpa [mayWrite, mem_partsUpTo] using fun h15 => hx (Fin.last_le_iff.1 h15))
  | ldImm x _ | addImm x _ | rnd x _ | ldReg x _ | orReg x _ | andReg x _ | xorReg x _ | ldVxDt x | ldVxK x =>
    exact fun hx => hkept (by simpa [mayWrite] using hx.symm)
  | _ => exact hkept (by simp [mayWrite])

end Sys2Proof.Machine
end

section
/-! PROOFS. The step (spec/10_state.md R30, R31, spec/60_exceptions.md R172 to R175). `step_of_running` says once what a
step of a running core can be: it has raised, and then only the latch, `pc` and the inputs differ, or the decoded
instruction has had its effect and the timers have ticked. -/

namespace Sys2Proof.Machine

section
variable {s t u : State} {a : Nat} {w : Word} {e : DecodeError} {i : Instr}

/-! ### A step from its parts -/

theorem halted_eq_false (h : s.fault.code = .none) : s.halted = false := (State.running_iff s).1 h

theorem halted_eq_true (h : s.fault.code ≠ .none) : s.halted = true := bne_iff_ne.2 h

theorem code_eq_none (h : s.halted = false) : s.fault.code = .none := (State.running_iff s).2 h

theorem step_of_fetch_error (hh : s.halted = false) (hf : fetch s = .error a) : step s = .next (fetchFault a s) := by
  simp only [step, hh, hf, Bool.false_eq_true, if_false]

theorem step_of_decode_error (hh : s.halted = false) (hf : fetch s = .ok w) (hd : decode w = .error e) :
    step s = .next (decodeFault w s) := by
  simp only [step, hh, hf, hd, Bool.false_eq_true, if_false]

theorem step_of_exec (hh : s.halted = false) (hf : fetch s = .ok w) (hd : decode w = .ok i)
    (hx : exec i s.advancePc = .next u) : step s = .next (endStep u) := by
  simp only [step, hh, hf, hd, hx, Bool.false_eq_true, if_false]

/-- A step whose instruction does not raise: the effect, then the tick. -/
theorem step_of_effect (hh : s.halted = false) (hf : fetch s = .ok w) (hd : decode w = .ok i)
    (hn : faultOf s.advancePc i = none) : step s = .next (effect i s.advancePc).timerTick.consumeInput := by
  have hrun : (effect i s.advancePc).halted = false := by
    rw [State.halted, effect_fault]; exact hh
  rw [step_of_exec hh hf hd (exec_of_no_fault hn), endStep_of_running hrun]

/-- In every state a step answers a next state (R212). -/
theorem step_answers (s : State) : ∃ t, step s = .next t := by
  cases hh : s.halted with
  | true => exact ⟨s, step_of_halted hh⟩
  | false =>
    cases hf : fetch s with
    | error a => exact ⟨_, step_of_fetch_error hh hf⟩
    | ok w =>
      cases hd : decode w with
      | error e => exact ⟨_, step_of_decode_error hh hf hd⟩
      | ok i => exact ⟨_, step_of_exec hh hf hd (exec_eq i s.advancePc)⟩

/-! ### What a step of a running core can be -/

/-- The state after a step that raised: the latch, `pc` where the fetch succeeded, and the inputs (R172, log 5). -/
def State.afterRaise (s : State) (f : FaultLatch) (pc : Word) : State :=
  { s with fault := f, pc := pc, inputs := s.inputs.tail, freeIx := s.freeIx + 1 }

theorem fetchFault_legal (ha : a = max s.pc.toNat 4096) :
    FaultLatch.legal ⟨.outOfRange, .mem, BitVec.ofNat 16 a⟩ := by
  have hpc := s.pc.isLt
  show 4096 ≤ (BitVec.ofNat 16 a).toNat
  rw [BitVec.toNat_ofNat]; omega

/-- What an answer of a running core's step can be. -/
theorem step_of_running (hh : s.halted = false) (h : step s = .next t) :
    (∃ f pc, f.code ≠ .none ∧ f.legal ∧ (pc = s.pc ∨ pc = s.pc + 2 ∧ s.pc.toNat ≤ 4094) ∧ t = s.afterRaise f pc) ∨
    (∃ w i, fetch s = .ok w ∧ decode w = .ok i ∧ faultOf s.advancePc i = none ∧
      t = (effect i s.advancePc).timerTick.consumeInput) := by
  obtain ⟨hhalt, -⟩ | ⟨-, a, hf, rfl⟩ | ⟨-, w, e, hf, hd, rfl⟩ | ⟨-, w, i, u, hf, hd, hx, rfl⟩ := step_cases h
  · rw [hh] at hhalt; cases hhalt
  · exact .inl ⟨_, s.pc, by simp, fetchFault_legal (fetch_eq_error.1 hf).2, .inl rfl, rfl⟩
  · exact .inl ⟨_, s.pc + 2, by simp, rfl, .inr ⟨rfl, (fetch_eq_ok.1 hf).1⟩, rfl⟩
  · obtain ⟨f, hfault, rfl⟩ | ⟨hfault, rfl⟩ := exec_cases hx
    · obtain ⟨hcode, hlegal⟩ := faultOf_legal hfault
      have hend : endStep { s.advancePc with fault := f } = s.afterRaise f (s.pc + 2) :=
        endStep_of_halted (halted_eq_true hcode)
      exact .inl ⟨f, s.pc + 2, hcode, hlegal, .inr ⟨rfl, (fetch_eq_ok.1 hf).1⟩, hend⟩
    · refine .inr ⟨w, i, hf, hd, hfault, ?_⟩
      exact Host.Outcome.next.inj (h.symm.trans (step_of_effect hh hf hd hfault))

theorem step_inputs (hh : s.halted = false) (h : step s = .next t) : t.inputs = s.inputs.tail := by
  obtain ⟨f, pc, -, -, -, rfl⟩ | ⟨w, i, -, -, -, rfl⟩ := step_of_running hh h
  · rfl
  · rw [State.consumeInput_inputs, State.timerTick_inputs, effect_inputs, State.advancePc_inputs]

end

/-! ### The statements about the step -/

/-- Settles O12: a step answers in every state (`step_answers`), and the host's call is a step. -/
theorem stepIsTotal : Obligations.StepIsTotal := fun _ _ s => ⟨step_answers s, step_answers _⟩

/-- Settles O11, by induction on the number of steps: a halted core answers its own state. -/
theorem haltedCoreStays : Obligations.HaltedCoreStays := by
  intro k s h
  induction k with
  | zero => rfl
  | succ k ih => rw [run_succ_of_step (step_of_halted (halted_eq_true h)), ih]

/-- Settles O7: the fetched word is the two bytes' (`fetch_eq_ok`); the instruction answers (`exec_eq`) and keeps the
inputs, and `endStep` ticks unless it raised. -/
theorem stepRunsDecodedInstruction : Obligations.StepRunsDecodedInstruction := by
  intro s hi lo i hrun hhi hlo hd
  have hh := halted_eq_false hrun
  have hword : wordOfBytes hi lo = BitVec.ofNat 16 (hi.toNat * 256 + lo.toNat) := by
    rw [← wordOfBytes_toNat, BitVec.ofNat_toNat, BitVec.setWidth_eq]
  have hf : fetch s = .ok (wordOfBytes hi lo) := by simp only [fetch, hhi, hlo]
  obtain ⟨u, hx⟩ : ∃ u, exec i s.advancePc = .next u := ⟨_, exec_eq i _⟩
  obtain ⟨-, -, hinputs, hfreeIx⟩ := onlyChanges_exec hx
  refine ⟨u, hx, ?_⟩
  rw [step_of_exec hh hf (hword ▸ hd) hx]
  have hin : s.inputs = u.inputs := hinputs.symm
  have hix : s.freeIx = u.freeIx := hfreeIx.symm
  rw [hin, hix]
  by_cases hcode : u.fault.code = .none
  · rw [endStep_of_running (halted_eq_false hcode)]
    simp only [hcode, if_true]; rfl
  · rw [endStep_of_halted (halted_eq_true hcode)]
    simp only [hcode, if_false]; rfl

/-- Settles O8: the three cases of a fetch (`fetch_ok`, `fetch_error`). -/
theorem fetchIsBigEndian : Obligations.FetchIsBigEndian := by
  refine fun s => ⟨fun h => ?_, fun h => ?_, fun h => ?_⟩
  · exact ⟨_, _, _, s.memRead_in (by omega), s.memRead_in (by omega), fetch_ok h, wordOfBytes_toNat _ _⟩
  · rw [fetch_error (by omega), h]; rfl
  · rw [fetch_error (by omega), Nat.max_eq_left (by omega)]

/-- The address of a fetch fault as the latch holds it. -/
theorem ofNat_max_pc (pc : Word) :
    BitVec.ofNat 16 (max pc.toNat 4096) = if 4095 < pc.toNat then pc else 4096 := by
  split
  · rw [Nat.max_eq_left (by omega), BitVec.ofNat_toNat, BitVec.setWidth_eq]
  · rw [Nat.max_eq_right (by omega)]; rfl

/-- Settles O9: the fetch reports `max(pc, 4096)` (`fetch_error`), which the step latches. -/
theorem fetchFaultLatches : Obligations.FetchFaultLatches := by
  intro s hrun hpc
  rw [step_of_fetch_error (halted_eq_false hrun) (fetch_error (by omega)), ← ofNat_max_pc]
  rfl

/-- Settles O10: a word that the decoder reads would match a row (`matchesRow_of_decode`). -/
theorem decodeFaultLatches : Obligations.DecodeFaultLatches := by
  intro s w hrun hf hrows
  cases hd : decode w with
  | ok i =>
    obtain ⟨r, hr, hmatch⟩ := matchesRow_of_decode hd
    exact absurd hmatch (hrows r hr)
  | error e =>
    rw [step_of_decode_error (halted_eq_false hrun) hf hd, decodeFault, raise, BitVec.ofNat_toNat, BitVec.setWidth_eq]
    rfl

/-- Settles O14: the first case of `step_of_running`; in the second the latch is the old one. -/
theorem faultsArePrecise : Obligations.FaultsArePrecise := by
  intro s t hrun h hraised
  obtain ⟨f, pc, -, -, hpc, rfl⟩ | ⟨w, i, -, -, -, rfl⟩ := step_of_running (halted_eq_false hrun) h
  · exact ⟨hpc.imp_right And.left, rfl⟩
  · refine absurd ?_ hraised
    rw [State.consumeInput_fault, State.timerTick_fault, effect_fault]; exact hrun

/-- Settles O13: a raise leaves the timers; otherwise the tick lowers what the effect left, which is the old value
unless the instruction is the timer's own. -/
theorem timersTickOncePerStep : Obligations.TimersTickOncePerStep := by
  intro s t hrun h
  obtain ⟨f, pc, hcode, -, -, rfl⟩ | ⟨w, i, hf, hd, -, rfl⟩ := step_of_running (halted_eq_false hrun) h
  · exact ⟨fun _ => ⟨rfl, rfl⟩, fun hnone => absurd hnone hcode⟩
  · have hfault : (effect i s.advancePc).timerTick.consumeInput.fault.code = .none := by
      rw [State.consumeInput_fault, State.timerTick_fault, effect_fault]; exact hrun
    have hdt : Part.dt ∉ mayWrite i → (effect i s.advancePc).dt = s.dt := fun hp => unchanged_effect hp s.advancePc
    have hst : Part.st ∉ mayWrite i → (effect i s.advancePc).st = s.st := fun hp => unchanged_effect hp s.advancePc
    refine ⟨fun hraised => absurd hfault hraised, fun _ => ⟨w, i, hf, hd, ?_, ?_, ?_⟩⟩
    · rw [State.consumeInput_dt, State.timerTick_dt, tickDown_toNat]
      cases i with
      | ldDtVx x => rfl
      | ldRegs x => rw [hdt (by simp [mayWrite, not_mem_partsUpTo])]
      | _ => rw [hdt (by simp [mayWrite])]
    · rw [State.consumeInput_st, State.timerTick_st, tickDown_toNat]
      cases i with
      | ldStVx x => rfl
      | ldRegs x => rw [hst (by simp [mayWrite, not_mem_partsUpTo])]
      | _ => rw [hst (by simp [mayWrite])]
    · rintro x rfl
      exact State.reg_setReg_self _ x _

/-- Settles O59: on a halted core `stepWith` answers the state as it is; on a running one it is the step that uses its
inputs up (`step_inputs`). -/
theorem hostStepKeepsNoInput : Obligations.HostStepKeepsNoInput := by
  intro keys rand s
  cases hh : s.halted with
  | true =>
    refine ⟨s, stepWith_of_halted hh keys rand, rfl, fun _ => rfl, fun hrun => ?_⟩
    rw [halted_eq_false hrun] at hh; cases hh
  | false =>
    obtain ⟨t, ht⟩ := step_answers { s with inputs := ⟨keys, rand⟩ :: s.inputs }
    have hinputs := step_inputs (s := { s with inputs := ⟨keys, rand⟩ :: s.inputs }) hh ht
    refine ⟨t, (stepWith_of_running hh keys rand).trans ht, hinputs, fun hraised => ?_, fun _ => ht⟩
    exact absurd (code_eq_none hh) hraised

end Sys2Proof.Machine
end

section
/-! PROOFS. The invariant (spec/10_state.md section 2 and 3, spec/70_reset_and_hazards.md section 1): what an effect keeps,
field by field, then the step, then the reset. -/

namespace Sys2Proof.Machine

section
variable {i : Instr} {s : State}

/-! ### Canonical memory -/

/-- Only the two stores write memory. -/
theorem effect_mem (hB : ∀ x, i ≠ .ldB x) (hst : ∀ x, i ≠ .stRegs x) : (effect i s).mem = s.mem := by
  cases i with
  | ldB x => exact absurd rfl (hB x)
  | stRegs x => exact absurd rfl (hst x)
  | seImm x nn | sneImm x nn => simp only [effect, State.skipIf_eq, State.setPc_mem]
  | seReg x y | sneReg x y => simp only [effect, State.skipIf_eq, State.setPc_mem]
  | skp x | sknp x => simp only [effect, State.skipIf_eq, State.setPc_mem]
  | addI x | ldVxK x => simp only [effect]; split <;> rfl
  | ldRegs x => exact s.loadRegsUpTo_mem x
  | _ => rfl

theorem effect_keeps_memory_wf (hm : Memory.wf s.cfg s.mem) (hn : faultOf s i = none) :
    Memory.wf (effect i s).cfg (effect i s).mem := by
  have hblock : ∀ {n : Nat}, n ≠ 0 → rangeFault s n = none → s.indexed 0 + n ≤ 4096 :=
    fun h0 h => (rangeFault_eq_none.1 h).resolve_left h0
  cases i with
  | ldB x => exact State.storeBlock_wf hm (hblock (n := 3) (by decide) hn)
  | stRegs x => exact State.storeBlock_wf hm (by rw [length_regsUpTo]; exact hblock (by omega) hn)
  | _ => rwa [effect_cfg, effect_mem (by simp) (by simp)]

/-! ### The call stack and `pc` -/

theorem stackLegal_push {w : Word} (h : s.stackLegal) (hroom : s.sp ≠ s.cfg.stackDepth) (hlow : 2 ≤ w.toNat)
    (hhigh : w.toNat ≤ 4096) : (s.push w).stackLegal := by
  obtain ⟨hlen, hsp, hentries⟩ := h
  refine ⟨by simpa using hlen, by simp only [State.push_sp, State.push_cfg]; omega, fun k hk => ?_⟩
  rw [State.push_sp] at hk
  simp only [State.stackAt, State.push_stack, List.getD_eq_getElem?_getD, List.getElem?_set]
  by_cases htop : s.sp = k
  · rw [if_pos htop, if_pos (by omega)]
    exact ⟨hlow, hhigh⟩
  · rw [if_neg htop, ← List.getD_eq_getElem?_getD]
    exact hentries k (by omega)

theorem stackLegal_popToPc (h : s.stackLegal) : s.popToPc.stackLegal := by
  obtain ⟨hlen, hsp, hentries⟩ := h
  exact ⟨hlen, (Nat.sub_le _ _).trans hsp, fun k hk => hentries k (hk.trans_le (Nat.sub_le _ _))⟩

theorem stackLegal_congr {t : State} (h : s.stackLegal) (hcfg : t.cfg = s.cfg) (hstack : t.stack = s.stack)
    (hsp : t.sp = s.sp) : t.stackLegal := by
  unfold State.stackLegal State.stackAt at h ⊢
  rwa [hcfg, hstack, hsp]

/-- The return address a call pushes is the post-fetch `pc`, 2 to 4096. -/
theorem effect_keeps_stackLegal (h : s.stackLegal) (hn : faultOf s i = none) (hlow : 2 ≤ s.pc.toNat)
    (hhigh : s.pc.toNat ≤ 4096) : (effect i s).stackLegal := by
  have hkept : Part.stack ∉ mayWrite i → Part.sp ∉ mayWrite i → (effect i s).stackLegal := fun hstack hsp =>
    stackLegal_congr h (effect_cfg i s) (unchanged_effect hstack s) (unchanged_effect hsp s)
  cases i with
  | ret => exact stackLegal_popToPc h
  | call nnn =>
    have hroom : s.sp ≠ s.cfg.stackDepth := fun hfull => by simp [faultOf, hfull] at hn
    exact stackLegal_congr (stackLegal_push h hroom hlow hhigh) rfl rfl rfl
  | ldRegs x => exact hkept (by simp [mayWrite, not_mem_partsUpTo]) (by simp [mayWrite, not_mem_partsUpTo])
  | _ => exact hkept (by simp [mayWrite]) (by simp [mayWrite])

theorem pcLegal_setPc {w : Word} (h : w.toNat ≤ 0x10FE) : (s.setPc w).pcLegal := h

theorem pcLegal_zextAddr (nnn : BitVec 12) : (s.setPc (zextAddr nnn)).pcLegal := by
  have hnnn := nnn.isLt
  refine pcLegal_setPc ?_
  rw [zextAddr_toNat]; omega

theorem pcLegal_skipIf (hhigh : s.pc.toNat ≤ 4096) (b : Bool) : (s.skipIf b).pcLegal := by
  have hnext : (s.pc + 2).toNat = s.pc.toNat + 2 := by rw [BitVec.toNat_add]; simp; omega
  rw [State.skipIf_eq]
  refine pcLegal_setPc ?_
  split <;> omega

/-- The highest target of `JP V0, addr` is 255 + 4095 (R15 c). -/
theorem pcLegal_jpV0 (nnn : BitVec 12) : (effect (.jpV0 nnn) s).pcLegal := by
  have hnnn := nnn.isLt
  have hv0 := (s.reg 0).isLt
  refine pcLegal_setPc ?_
  rw [BitVec.toNat_ofNat]; omega

theorem effect_pcLegal (h : s.stackLegal) (hn : faultOf s i = none) (hlow : 2 ≤ s.pc.toNat)
    (hhigh : s.pc.toNat ≤ 4096) : (effect i s).pcLegal := by
  have hpc : s.pcLegal := by unfold State.pcLegal; omega
  have hkept : Part.pc ∉ mayWrite i → (effect i s).pcLegal := fun hp => by
    have hsame : (effect i s).pc = s.pc := unchanged_effect hp s
    unfold State.pcLegal; rwa [hsame]
  cases i with
  | ret =>
    obtain ⟨-, -, hentries⟩ := h
    have hsome : s.sp ≠ 0 := fun hempty => by simp [faultOf, hempty] at hn
    exact (hentries (s.sp - 1) (by omega)).2.trans (by decide)
  | jp nnn | call nnn => exact pcLegal_zextAddr nnn
  | jpV0 nnn => exact pcLegal_jpV0 nnn
  | seImm x nn | sneImm x nn => exact pcLegal_skipIf hhigh _
  | seReg x y | sneReg x y => exact pcLegal_skipIf hhigh _
  | skp x | sknp x => exact pcLegal_skipIf hhigh _
  | ldVxK x =>
    simp only [effect]
    split
    · refine pcLegal_setPc ?_
      rw [BitVec.toNat_sub]; simp; omega
    · exact hpc
  | ldRegs x => exact hkept (by simp [mayWrite, not_mem_partsUpTo])
  | _ => exact hkept (by simp [mayWrite])

end

/-! ### The step and the reset -/

/-- Settles O18: after a raise only the latch and `pc` differ, and both are legal; otherwise the instruction ran after a
successful fetch, so `pc` was 2 to 4096, and its effect keeps each part of the invariant. -/
theorem stepKeepsInvariant : Obligations.StepKeepsInvariant := by
  intro s t hinv h
  cases hh : s.halted with
  | true =>
    obtain rfl := Host.Outcome.next.inj ((step_of_halted hh).symm.trans h)
    exact hinv
  | false =>
    have hadvance (hpc : s.pc.toNat ≤ 4094) : (s.pc + 2).toNat = s.pc.toNat + 2 := by
      rw [BitVec.toNat_add]; simp; omega
    obtain ⟨f, pc, -, hlegal, hpc, rfl⟩ | ⟨w, i, hf, -, hn, rfl⟩ := step_of_running hh h
    · refine ⟨hinv.cfg, hinv.mem, hinv.stack, ?_, hlegal⟩
      obtain rfl | ⟨rfl, hfetched⟩ := hpc
      · exact hinv.pc
      · show (s.pc + 2).toNat ≤ 0x10FE
        have := hadvance hfetched; omega
    · have hadv := hadvance (fetch_eq_ok.1 hf).1
      have hlow : 2 ≤ s.advancePc.pc.toNat := by rw [State.advancePc_pc]; omega
      have hhigh : s.advancePc.pc.toNat ≤ 4096 := by
        have := (fetch_eq_ok.1 hf).1
        rw [State.advancePc_pc]; omega
      have hstack : s.advancePc.stackLegal := hinv.stack
      refine ⟨?_, effect_keeps_memory_wf (s := s.advancePc) hinv.mem hn, ?_, ?_, ?_⟩
      · exact (congrArg Config.wellFormed (effect_cfg i s.advancePc)).trans hinv.cfg
      · exact effect_keeps_stackLegal hstack hn hlow hhigh
      · exact effect_pcLegal hstack hn hlow hhigh
      · exact (effect_fault i s.advancePc).symm ▸ hinv.fault

theorem resetFor_inv {c : Config} (h : c.wellFormed = true) : (State.resetFor c).Inv := by
  obtain ⟨-, hprog, -⟩ := c.wellFormed_iff.1 h
  refine ⟨h, Memory.nil_wf c, ⟨List.length_replicate, Nat.zero_le _, fun k hk => absurd hk (Nat.not_lt_zero k)⟩, ?_,
    ⟨rfl, rfl⟩⟩
  show (BitVec.ofNat 16 c.progBase).toNat ≤ 0x10FE
  rw [BitVec.toNat_ofNat]; omega

/-- Settles O19: the default configuration is well formed. -/
theorem resetIsLegal : Obligations.ResetIsLegal := resetFor_inv (by decide)

/-- The state a reset starts from, before an image is copied in (R200). -/
def State.fresh (s : State) : State := { State.resetFor s.cfg with inputs := s.inputs, freeIx := s.freeIx }

theorem hostReset_of_fits {rom : List Byte} {s : State} (h : rom.length ≤ s.cfg.maxRom) :
    hostReset rom s = s.fresh.storeBlock s.cfg.progBase rom := if_pos h

theorem hostReset_of_oversized {rom : List Byte} {s : State} (h : s.cfg.maxRom < rom.length) :
    hostReset rom s = raise .romTooLarge .mem 0 s.fresh := if_neg (Nat.not_le.2 h)

/-- Settles O20: the fresh state is legal (`resetFor_inv`); an image that fits is a store in bounds, a longer one sets a
latch that R171 lists. -/
theorem hostResetIsLegal : Obligations.HostResetIsLegal := by
  intro rom s hwf
  obtain ⟨-, hprog, -⟩ := s.cfg.wellFormed_iff.1 hwf
  obtain ⟨hcfg, hmem, hstack, hpc, hfault⟩ := resetFor_inv hwf
  by_cases hrom : rom.length ≤ s.cfg.maxRom
  · have hfits : s.cfg.progBase + rom.length ≤ Config.memSize := by
      unfold Config.maxRom Config.memSize at hrom; unfold Config.memSize; omega
    rw [hostReset_of_fits hrom]
    exact ⟨hcfg, State.storeBlock_wf (s := s.fresh) hmem hfits, hstack, hpc, hfault⟩
  · rw [hostReset_of_oversized (Nat.not_le.1 hrom)]
    exact ⟨hcfg, hmem, hstack, hpc, rfl, rfl⟩

theorem stackAt_fresh (s : State) (k : Nat) : s.fresh.stackAt k = 0 := by
  show (List.replicate s.cfg.stackDepth 0).getD k 0 = 0
  rw [List.getD_eq_getElem?_getD, List.getElem?_replicate]
  split <;> rfl

/-- Settles O23: a successful reset is the fresh state with the image in memory, and the fresh state is built from the
configuration and the host's inputs alone. -/
theorem resetRegistersAreZero : Obligations.ResetRegistersAreZero := by
  intro rom s hrom
  have hreset : hostReset rom s = s.fresh.storeBlock s.cfg.progBase rom := hostReset_of_fits hrom
  have hzero (r : Reg) : s.fresh.reg r = 0 := Vector.getElem_replicate _
  simp only [hreset]
  refine ⟨hzero, rfl, rfl, rfl, rfl, List.length_replicate, stackAt_fresh s, rfl, rfl, ?_⟩
  intro s' hcfg hinputs hfreeIx
  have hfresh : s'.fresh = s.fresh := by unfold State.fresh; rw [hcfg, hinputs, hfreeIx]
  rw [hostReset_of_fits (hcfg ▸ hrom), hfresh, hcfg]

/-- Settles O24: an oversized image is dropped and the latch set, and a halted core answers its own state. -/
theorem oversizedImageHalts : Obligations.OversizedImageHalts := by
  intro rom s hrom
  have hempty : hostReset [] s = s.fresh := hostReset_of_fits (Nat.zero_le _)
  rw [hostReset_of_oversized hrom, hempty]
  exact ⟨rfl, rfl, step_of_halted rfl⟩

end Sys2Proof.Machine
end

section
/-! PROOFS. What cannot be observed (spec/10_state.md R16, R18, R26, R27). An effect commutes with a change of the sound
timer, the call stack and the inputs that its instruction cannot tell (`Blind`); a relation between two states that each
part of a step keeps is kept by the step (`step_related`). -/

namespace Sys2Proof.Machine

/-! ### Changing the parts that few instructions read -/

section
variable (f : Byte → Byte) (k : List Word → List Word) (l : List Input → List Input)

/-- The state with its sound timer, call stack and inputs changed. -/
def State.mapHidden (s : State) : State := { s with st := f s.st, stack := k s.stack, inputs := l s.inputs }

/-- Instruction `i` in state `s` cannot tell the change: what it reads of the three parts is as before, and what it
writes to them is what the change would have made of it. -/
structure Blind (i : Instr) (s : State) : Prop where
  sound : ∀ x, i = .ldStVx x → f (s.reg x) = s.reg x
  push  : ∀ nnn, i = .call nnn → k (s.stack.set s.sp s.pc) = (k s.stack).set s.sp s.pc
  pop   : i = .ret → (k s.stack).getD (s.sp - 1) 0 = s.stackAt (s.sp - 1)
  rand  : ∀ x nn, i = .rnd x nn → (s.mapHidden f k l).input.rand = s.input.rand
  keys  : ∀ x, i = .skp x ∨ i = .sknp x ∨ i = .ldVxK x → (s.mapHidden f k l).input.keys = s.input.keys

variable {f k l} {i : Instr} {s t : State}

theorem push_mapHidden {w : Word} (h : k (s.stack.set s.sp w) = (k s.stack).set s.sp w) :
    (s.mapHidden f k l).push w = (s.push w).mapHidden f k l := by
  simp only [State.push, State.mapHidden, h]

theorem popToPc_mapHidden (h : (k s.stack).getD (s.sp - 1) 0 = s.stackAt (s.sp - 1)) :
    (s.mapHidden f k l).popToPc = s.popToPc.mapHidden f k l := by
  simp only [State.popToPc, State.mapHidden, State.stackAt, h]

theorem loadRegsUpTo_mapHidden (x : Reg) :
    (s.mapHidden f k l).loadRegsUpTo x = (s.loadRegsUpTo x).mapHidden f k l := by
  simp only [State.loadRegsUpTo, State.mapHidden]; rfl

theorem keyDown_mapHidden (h : (s.mapHidden f k l).input.keys = s.input.keys) (b : Nat) :
    (s.mapHidden f k l).keyDown b = s.keyDown b := by
  rw [State.keyDown, State.keyDown, h]

theorem effect_addI_mapHidden (x : Reg) (s : State) :
    effect (.addI x) (s.mapHidden f k l) = (effect (.addI x) s).mapHidden f k l := by
  by_cases h : indexExceeds s.index (s.reg x) = true
  · rw [effect_addI_exceeds h, effect_addI_exceeds (s := s.mapHidden f k l) h]; rfl
  · rw [effect_addI_within h, effect_addI_within (s := s.mapHidden f k l) h]; rfl

theorem effect_ldVxK_mapHidden {x : Reg} (h : (s.mapHidden f k l).input.keys = s.input.keys) :
    effect (.ldVxK x) (s.mapHidden f k l) = (effect (.ldVxK x) s).mapHidden f k l := by
  cases hk : selectKey s.cfg s.input.keys with
  | none =>
    have hnone : s.input.keys = 0 := selectKey_eq_none.1 hk
    rw [effect_ldVxK_wait hnone, effect_ldVxK_wait (h.trans hnone)]; rfl
  | some key =>
    have hkey : selectKey (s.mapHidden f k l).cfg (s.mapHidden f k l).input.keys = some key := by rw [h]; exact hk
    rw [effect_ldVxK_key hk, effect_ldVxK_key hkey]; rfl

theorem effect_mapHidden (h : Blind f k l i s) : effect i (s.mapHidden f k l) = (effect i s).mapHidden f k l := by
  obtain ⟨hsound, hpush, hpop, hrand, hkeys⟩ := h
  cases i with
  | ret => exact popToPc_mapHidden (hpop rfl)
  | call nnn => exact congrArg (State.setPc · (zextAddr nnn)) (push_mapHidden (hpush nnn rfl))
  | seImm x nn | sneImm x nn => simp only [effect, State.skipIf_eq]; rfl
  | seReg x y | sneReg x y => simp only [effect, State.skipIf_eq]; rfl
  | rnd x nn => exact congrArg (fun r => (s.mapHidden f k l).setReg x (r &&& nn)) (hrand x nn rfl)
  | skp x => simp only [effect, State.skipIf_eq, keyDown_mapHidden (hkeys x (.inl rfl))]; rfl
  | sknp x => simp only [effect, State.skipIf_eq, keyDown_mapHidden (hkeys x (.inr (.inl rfl)))]; rfl
  | ldStVx x => exact congrArg (s.mapHidden f k l).setSt (hsound x rfl).symm
  | addI x => exact effect_addI_mapHidden x s
  | ldVxK x => exact effect_ldVxK_mapHidden (hkeys x (.inr (.inr rfl)))
  | ldRegs x => exact loadRegsUpTo_mapHidden x
  | _ => rfl

theorem faultOf_mapHidden (i : Instr) (s : State) : faultOf (s.mapHidden f k l) i = faultOf s i := by
  cases i <;> rfl

theorem exec_mapHidden (h : Blind f k l i s) (hx : exec i s = .next t) :
    exec i (s.mapHidden f k l) = .next (t.mapHidden f k l) := by
  obtain ⟨latch, hf, rfl⟩ | ⟨hn, rfl⟩ := exec_cases hx
  · rw [exec_of_fault ((faultOf_mapHidden i s).trans hf)]; rfl
  · rw [exec_of_no_fault ((faultOf_mapHidden i s).trans hn), effect_mapHidden h]

end

/-! ### Two states stepping side by side -/

/-- A relation that the faults of a step, the instruction and the end of a step keep is kept by the step. -/
theorem step_related {R : State → State → Prop} {s s' t : State} (h : step s = .next t) (hR : R s s')
    (hhalted : s'.halted = s.halted) (hfetch : fetch s' = fetch s)
    (hfetchFault : ∀ a, R (fetchFault a s) (fetchFault a s'))
    (hdecodeFault : ∀ w, R (decodeFault w s) (decodeFault w s'))
    (hexec : ∀ i u, exec i s.advancePc = .next u → ∃ u', exec i s'.advancePc = .next u' ∧ R u u')
    (hendStep : ∀ u u', R u u' → R (endStep u) (endStep u')) : ∃ t', step s' = .next t' ∧ R t t' := by
  obtain ⟨hh, rfl⟩ | ⟨hh, a, hf, rfl⟩ | ⟨hh, w, e, hf, hd, rfl⟩ | ⟨hh, w, i, u, hf, hd, hx, rfl⟩ := step_cases h
  · exact ⟨s', step_of_halted (hhalted.trans hh), hR⟩
  · exact ⟨_, step_of_fetch_error (hhalted.trans hh) (hfetch.trans hf), hfetchFault a⟩
  · exact ⟨_, step_of_decode_error (hhalted.trans hh) (hfetch.trans hf) hd, hdecodeFault w⟩
  · obtain ⟨u', hx', hR'⟩ := hexec i u hx
    exact ⟨_, step_of_exec (hhalted.trans hh) (hfetch.trans hf) hd hx', hendStep u u' hR'⟩

/-! ### The sound timer -/

/-- The two states differ at most in `ST`. -/
def SameButSound (t t' : State) : Prop := ∃ z, t' = { t with st := z }

theorem sameButSound_exec {i : Instr} {s u : State} (z : Byte) (h : exec i s = .next u) :
    ∃ u', exec i { s with st := z } = .next u' ∧ SameButSound u u' := by
  by_cases hi : ∃ x, i = .ldStVx x
  · obtain ⟨x, rfl⟩ := hi
    exact ⟨u, h, u.st, rfl⟩
  · have hblind : Blind (fun _ => z) id id i s :=
      ⟨fun x e => absurd ⟨x, e⟩ hi, fun _ _ => rfl, fun _ => rfl, fun _ _ _ => rfl, fun _ _ => rfl⟩
    exact ⟨_, exec_mapHidden hblind h, z, rfl⟩

theorem sameButSound_endStep (u u' : State) (h : SameButSound u u') : SameButSound (endStep u) (endStep u') := by
  obtain ⟨z, rfl⟩ := h
  cases hu : u.halted with
  | true => rw [endStep_of_halted hu, endStep_of_halted (s := { u with st := z }) hu]; exact ⟨z, rfl⟩
  | false => rw [endStep_of_running hu, endStep_of_running (s := { u with st := z }) hu]; exact ⟨tickDown z, rfl⟩

/-- Settles O54: `SameButSound` is kept by every part of a step; `LD ST, Vx` overwrites the timer, and no other
instruction can tell it. -/
theorem soundTimerIsUnreadable : Obligations.SoundTimerIsUnreadable := by
  intro s t z h
  obtain ⟨t', ht', z', rfl⟩ := step_related (R := SameButSound) (s' := { s with st := z }) h ⟨z, rfl⟩ rfl rfl
    (fun _ => ⟨z, rfl⟩) (fun _ => ⟨z, rfl⟩) (fun _ _ => sameButSound_exec z) sameButSound_endStep
  exact ⟨_, ht', rfl⟩

/-! ### Popped entries of the call stack -/

/-- The two states differ at most in entries of the call stack at or above `SP`. -/
def SameButPopped (t t' : State) : Prop :=
  ∃ stk, stk.length = t.stack.length ∧ (∀ k, k < t.sp → stk[k]? = t.stack[k]?) ∧ t' = { t with stack := stk }

/-- The entry a call pushes is the same on both stacks, and it is the only new one below `SP`. -/
theorem sameButPopped_push {s : State} {stk : List Word} (w : Word) (hlen : stk.length = s.stack.length)
    (hbelow : ∀ k, k < s.sp → stk[k]? = s.stack[k]?) :
    SameButPopped (s.push w) (State.push { s with stack := stk } w) := by
  refine ⟨stk.set s.sp w, by simp [hlen], fun k hk => ?_, rfl⟩
  rw [State.push_sp] at hk
  rw [State.push_stack, List.getElem?_set, List.getElem?_set, hlen]
  by_cases htop : s.sp = k
  · rw [if_pos htop, if_pos htop]
  · rw [if_neg htop, if_neg htop, hbelow k (by omega)]

theorem exec_sp_le {i : Instr} {s u : State} (hi : ∀ nnn, i ≠ .call nnn) (h : exec i s = .next u) : u.sp ≤ s.sp := by
  have hkept : Part.sp ∉ mayWrite i → u.sp ≤ s.sp := fun hp => Nat.le_of_eq ((onlyChanges_exec h).1 _ hp)
  cases i with
  | ret =>
    obtain ⟨f, -, rfl⟩ | ⟨-, rfl⟩ := exec_cases h
    · exact Nat.le_refl _
    · exact Nat.sub_le _ _
  | call nnn => exact absurd rfl (hi nnn)
  | ldRegs x => exact hkept (by simp [mayWrite, not_mem_partsUpTo])
  | _ => exact hkept (by simp [mayWrite])

theorem exec_stack {i : Instr} {s u : State} (hi : ∀ nnn, i ≠ .call nnn) (h : exec i s = .next u) :
    u.stack = s.stack := by
  refine (onlyChanges_exec h).1 .stack ?_
  cases i with
  | call nnn => exact absurd rfl (hi nnn)
  | ldRegs x => simp [mayWrite, not_mem_partsUpTo]
  | _ => simp [mayWrite]

theorem sameButPopped_exec {i : Instr} {s u : State} {stk : List Word} (hlen : stk.length = s.stack.length)
    (hbelow : ∀ k, k < s.sp → stk[k]? = s.stack[k]?) (h : exec i s = .next u) :
    ∃ u', exec i { s with stack := stk } = .next u' ∧ SameButPopped u u' := by
  by_cases hi : ∃ nnn, i = .call nnn
  · obtain ⟨nnn, rfl⟩ := hi
    obtain ⟨f, hf, rfl⟩ | ⟨hn, rfl⟩ := exec_cases h
    · exact ⟨_, exec_of_fault (s := { s with stack := stk }) hf, stk, hlen, hbelow, rfl⟩
    · obtain ⟨stk', hlen', hbelow', heq⟩ := sameButPopped_push s.pc hlen hbelow
      refine ⟨_, exec_of_no_fault (s := { s with stack := stk }) hn, stk', hlen', hbelow', ?_⟩
      exact congrArg (fun s' => s'.setPc (zextAddr nnn)) heq
  · have hcall : ∀ nnn, i ≠ .call nnn := fun nnn e => hi ⟨nnn, e⟩
    cases hn : faultOf s i with
    | some f =>
      obtain rfl := Host.Outcome.next.inj ((exec_of_fault hn).symm.trans h)
      exact ⟨_, exec_of_fault (s := { s with stack := stk }) hn, stk, hlen, hbelow, rfl⟩
    | none =>
      have hpop (hret : i = .ret) : stk.getD (s.sp - 1) 0 = s.stackAt (s.sp - 1) := by
        subst hret
        have hsome : s.sp ≠ 0 := fun hempty => by simp [faultOf, hempty] at hn
        rw [State.stackAt, List.getD_eq_getElem?_getD, List.getD_eq_getElem?_getD, hbelow _ (by omega)]
      have hblind : Blind id (fun _ => stk) id i s :=
        ⟨fun _ _ => rfl, fun nnn e => absurd e (hcall nnn), hpop, fun _ _ _ => rfl, fun _ _ => rfl⟩
      refine ⟨_, exec_mapHidden hblind h, stk, ?_, fun k hk => ?_, rfl⟩
      · rw [exec_stack hcall h, hlen]
      · rw [exec_stack hcall h, hbelow k (hk.trans_le (exec_sp_le hcall h))]

theorem sameButPopped_endStep (u u' : State) (h : SameButPopped u u') : SameButPopped (endStep u) (endStep u') := by
  obtain ⟨stk, hlen, hbelow, rfl⟩ := h
  cases hu : u.halted with
  | true =>
    rw [endStep_of_halted hu, endStep_of_halted (s := { u with stack := stk }) hu]
    exact ⟨stk, hlen, hbelow, rfl⟩
  | false =>
    rw [endStep_of_running hu, endStep_of_running (s := { u with stack := stk }) hu]
    exact ⟨stk, hlen, hbelow, rfl⟩

/-- Settles O55: `SameButPopped` is kept by every part of a step; a return reads below `SP`, and a call pushes the same
entry on both stacks. -/
theorem poppedEntriesAreUnreadable : Obligations.PoppedEntriesAreUnreadable := by
  intro s t stk hlen hbelow h
  have hR (latch : FaultLatch) (pc : Word) :
      SameButPopped (s.afterRaise latch pc) (State.afterRaise { s with stack := stk } latch pc) :=
    ⟨stk, hlen, hbelow, rfl⟩
  obtain ⟨t', ht', stk', hlen', hbelow', rfl⟩ := step_related (R := SameButPopped) (s' := { s with stack := stk }) h
    ⟨stk, hlen, hbelow, rfl⟩ rfl rfl (fun _ => hR _ _) (fun _ => hR _ _)
    (fun _ _ => sameButPopped_exec (s := s.advancePc) hlen hbelow) sameButPopped_endStep
  exact ⟨_, ht', rfl, hlen', hbelow'⟩

/-! ### The inputs -/

/-- What is used up is the first input, whatever it was. -/
theorem consumeInput_of_same_tail {u : State} {q : List Input} (h : u.inputs.tail = q.tail) :
    State.consumeInput { u with inputs := q } = u.consumeInput := by
  simp only [State.consumeInput, h]

theorem endStep_of_same_tail {u : State} {q : List Input} (h : u.inputs.tail = q.tail) :
    endStep { u with inputs := q } = endStep u := by
  cases hu : u.halted with
  | true =>
    rw [endStep_of_halted hu, endStep_of_halted (s := { u with inputs := q }) hu]
    exact consumeInput_of_same_tail h
  | false =>
    rw [endStep_of_running hu, endStep_of_running (s := { u with inputs := q }) hu]
    exact consumeInput_of_same_tail (u := u.timerTick) h

/-- A step whose instruction cannot tell two inputs apart is the same step. -/
theorem step_of_blind_inputs {s : State} {w : Word} {i : Instr} {a b : Input} {q : List Input}
    (hh : s.halted = false) (hf : fetch s = .ok w) (hd : decode w = .ok i)
    (hblind : Blind id id (fun _ => b :: q) i { s.advancePc with inputs := a :: q }) :
    step { s with inputs := a :: q } = step { s with inputs := b :: q } := by
  obtain ⟨u, hx⟩ : ∃ u, exec i { s.advancePc with inputs := a :: q } = .next u := ⟨_, exec_eq i _⟩
  obtain ⟨-, -, hinputs, -⟩ := onlyChanges_exec hx
  have hstep := step_of_exec (s := { s with inputs := a :: q }) hh hf hd hx
  have hstep' := step_of_exec (s := { s with inputs := b :: q }) hh hf hd (exec_mapHidden hblind hx)
  rw [hstep, hstep']
  exact congrArg _ (endStep_of_same_tail (q := b :: q) (by rw [hinputs]; rfl)).symm

/-- Settles O56: an instruction other than `RND` cannot tell the random byte, one that reads no key cannot tell the
keys. -/
theorem inputsReadOnlyByTheirInstructions : Obligations.InputsReadOnlyByTheirInstructions := by
  intro s w i k k' r r' q hrun hf hd
  have hh := halted_eq_false hrun
  refine ⟨fun hrnd => step_of_blind_inputs hh hf hd ?_, fun hkeys => step_of_blind_inputs hh hf hd ?_⟩
  · exact ⟨fun _ _ => rfl, fun _ _ => rfl, fun _ => rfl, fun x nn e => absurd e (hrnd x nn), fun _ _ => rfl⟩
  · refine ⟨fun _ _ => rfl, fun _ _ => rfl, fun _ => rfl, fun _ _ _ => rfl, fun x hi => ?_⟩
    obtain ⟨hskp, hsknp, hldVxK⟩ := hkeys x
    obtain e | e | e := hi
    · exact absurd e hskp
    · exact absurd e hsknp
    · exact absurd e hldVxK

end Sys2Proof.Machine
end

section
/-! PROOFS. Runs of several steps. An idle step leaves everything but the timers and the inputs (`idle`); a jump to its own
address and a waiting `LD Vx, K` both make idle steps. -/

namespace Sys2Proof.Machine

/-! ### Idle steps -/

/-- What a step leaves whose instruction undoes the advance of `pc`. -/
def idle (s : State) : State := s.timerTick.consumeInput

theorem iterate_idle (k : Nat) (s : State) : idle^[k] s =
    { s with
      dt := tickDown^[k] s.dt
      st := tickDown^[k] s.st
      inputs := s.inputs.drop k
      freeIx := s.freeIx + k } := by
  induction k with
  | zero => rfl
  | succ k ih =>
    simp only [Function.iterate_succ_apply', ih, idle, State.timerTick, State.consumeInput, List.tail_drop, Nat.add_assoc]

theorem iterate_tickDown_toNat (k : Nat) (t : Byte) : (tickDown^[k] t).toNat = t.toNat - k := by
  induction k with
  | zero => rfl
  | succ k ih => rw [Function.iterate_succ_apply', tickDown_toNat, ih, Nat.sub_sub]

theorem fetch_iterate_idle (k : Nat) (s : State) : fetch (idle^[k] s) = fetch s := by rw [iterate_idle]; rfl

theorem halted_iterate_idle (k : Nat) (s : State) : (idle^[k] s).halted = s.halted := by rw [iterate_idle]; rfl

/-- An instruction whose effect is to undo the advance of `pc` makes an idle step. -/
theorem step_idle {s : State} {w : Word} {i : Instr} (hh : s.halted = false) (hf : fetch s = .ok w)
    (hd : decode w = .ok i) (hn : faultOf s.advancePc i = none) (hback : effect i s.advancePc = s) :
    step s = .next (idle s) := by
  rw [step_of_effect hh hf hd hn, hback]; rfl

/-- A run whose every step is idle. -/
theorem run_of_idle {k : Nat} {s : State} (h : ∀ j, j < k → step (idle^[j] s) = .next (idle (idle^[j] s))) :
    Host.Core.run Sys2Proof.core k s = .next (idle^[k] s) := by
  induction k generalizing s with
  | zero => rfl
  | succ k ih =>
    have hfirst : step s = .next (idle s) := h 0 (Nat.succ_pos k)
    rw [run_succ_of_step hfirst]
    exact ih fun j hj => h (j + 1) (Nat.succ_lt_succ hj)

/-- A run goes on from where a shorter one ended. -/
theorem run_add {k : Nat} {s t : State} (h : Host.Core.run Sys2Proof.core k s = .next t) (m : Nat) :
    Host.Core.run Sys2Proof.core (k + m) s = Host.Core.run Sys2Proof.core m t := by
  induction k generalizing s with
  | zero =>
    obtain rfl : s = t := Host.Outcome.next.inj h
    rw [Nat.zero_add]
  | succ k ih =>
    obtain ⟨u, hu⟩ := step_answers s
    rw [run_succ_of_step hu] at h
    rw [Nat.add_right_comm, run_succ_of_step hu, ih h]

/-- What idle steps leave, in the words of the statements. -/
theorem iterate_idle_timers (k : Nat) (s : State) :
    (idle^[k] s).dt.toNat = s.dt.toNat - k ∧ (idle^[k] s).st.toNat = s.st.toNat - k ∧
      idle^[k] s = { s with
        dt := (idle^[k] s).dt, st := (idle^[k] s).st, inputs := s.inputs.drop k, freeIx := s.freeIx + k } := by
  rw [iterate_idle]
  exact ⟨iterate_tickDown_toNat k s.dt, iterate_tickDown_toNat k s.st, rfl⟩

/-! ### A jump to its own address -/

theorem step_jump_to_self {s : State} (hh : s.halted = false) (hpc : s.pc.toNat ≤ 4094)
    (hf : fetch s = .ok (BitVec.ofNat 16 (0x1000 + s.pc.toNat))) : step s = .next (idle s) := by
  have haddr : (BitVec.ofNat 12 s.pc.toNat).toNat = s.pc.toNat := by rw [BitVec.toNat_ofNat]; omega
  have hword : BitVec.ofNat 16 (0x1000 + s.pc.toNat) = encodeA 0x1#4 (BitVec.ofNat 12 s.pc.toNat) := by
    rw [← wordA_eq_encodeA, wordA, haddr]; rfl
  have htarget : zextAddr (BitVec.ofNat 12 s.pc.toNat) = s.pc :=
    BitVec.eq_of_toNat_eq ((zextAddr_toNat _).trans haddr)
  refine step_idle hh (hword ▸ hf) (decode_encodeA_jp _) rfl ?_
  show s.advancePc.setPc _ = s
  rw [htarget]; rfl

/-- Settles O57: every step of the run is idle, since an idle step leaves the fetched word and the latch. -/
theorem jumpToSelfStandsStill : Obligations.JumpToSelfStandsStill := by
  intro k s hrun hpc hf
  have hidle (j : Nat) : step (idle^[j] s) = .next (idle (idle^[j] s)) := by
    have hsame : (idle^[j] s).pc = s.pc := by rw [iterate_idle]
    apply step_jump_to_self
    · rw [halted_iterate_idle, halted_eq_false hrun]
    · rwa [hsame]
    · rwa [fetch_iterate_idle, hsame]
  exact ⟨_, run_of_idle fun j _ => hidle j, iterate_idle_timers k s⟩

/-! ### Waiting for a key -/

theorem input_of_head {s : State} {d : Input} (h : s.inputs[0]? = some d) : s.input = d := by
  unfold State.input
  cases hq : s.inputs with
  | nil => simp [hq] at h
  | cons x q => simpa [hq] using h

theorem input_iterate_idle {s : State} {j : Nat} {d : Input} (h : s.inputs[j]? = some d) : (idle^[j] s).input = d := by
  apply input_of_head
  rw [iterate_idle, List.getElem?_drop, Nat.add_zero, h]

theorem setPc_back (s : State) : s.advancePc.setPc (s.advancePc.pc - 2) = s := by
  rw [State.advancePc_pc, BitVec.add_sub_cancel]; rfl

theorem step_key_wait {x : Reg} {w : Word} {s : State} (hh : s.halted = false) (hf : fetch s = .ok w)
    (hd : decode w = .ok (.ldVxK x)) (hnone : s.input.keys = 0) : step s = .next (idle s) := by
  refine step_idle hh hf hd rfl ?_
  rw [effect_ldVxK_wait (s := s.advancePc) hnone, setPc_back]

/-- A step of `LD Vx, K` with a key pressed goes on and stores a pressed key. -/
theorem step_key_found {x : Reg} {w : Word} {s : State} (hh : s.halted = false) (hf : fetch s = .ok w)
    (hd : decode w = .ok (.ldVxK x)) (hsome : s.input.keys ≠ 0) :
    ∃ u, step s = .next u ∧ u.pc = s.pc + 2 ∧ (u.reg x).toNat < 16 ∧
      s.input.keys.getLsbD (u.reg x).toNat = true := by
  cases hk : selectKey s.cfg s.input.keys with
  | none => exact absurd (selectKey_eq_none.1 hk) hsome
  | some key =>
    have hkey : (BitVec.ofNat 8 key.val).toNat = key.val := by
      have := key.isLt
      rw [BitVec.toNat_ofNat]; omega
    have hstep := step_of_effect hh hf hd rfl
    rw [effect_ldVxK_key (s := s.advancePc) hk] at hstep
    refine ⟨_, hstep, rfl, ?_⟩
    rw [State.reg_consumeInput, State.reg_timerTick, State.reg_setReg_self, hkey]
    exact ⟨key.isLt, selectKey_pressed hk⟩

/-- Settles O45: the first `k` steps are idle, and step `k` finds a key. -/
theorem keyWaitStandsStill : Obligations.KeyWaitStandsStill := by
  intro k x w s e hrun hf hd hwait he hkey
  have hh (j : Nat) : (idle^[j] s).halted = false := by rw [halted_iterate_idle, halted_eq_false hrun]
  have hf' (j : Nat) : fetch (idle^[j] s) = .ok w := by rw [fetch_iterate_idle, hf]
  have hidle (j : Nat) (hj : j < k) : step (idle^[j] s) = .next (idle (idle^[j] s)) := by
    obtain ⟨d, hd', hnone⟩ := hwait j hj
    exact step_key_wait (hh j) (hf' j) hd (by rw [input_iterate_idle hd', hnone])
  have hrunk := run_of_idle hidle
  obtain ⟨u, hu, hpc, hreg⟩ := step_key_found (hh k) (hf' k) hd (by rwa [input_iterate_idle he])
  rw [input_iterate_idle he] at hreg
  refine ⟨⟨_, hrunk, iterate_idle_timers k s⟩, u, ?_, ?_, hreg⟩
  · rw [run_add hrunk, run_succ_of_step hu]; rfl
  · rw [hpc, iterate_idle]

/-! ### A call and its return -/

theorem stackAt_push_top {s : State} (h : s.sp < s.stack.length) (w : Word) : (s.push w).stackAt s.sp = w := by
  rw [State.stackAt, State.push_stack, List.getD_eq_getElem?_getD, List.getElem?_set_self h]; rfl

/-- The fetch reads memory and `pc` alone. -/
theorem fetch_congr {s t : State} (hcfg : t.cfg = s.cfg) (hmem : t.mem = s.mem) (hpc : t.pc = s.pc) :
    fetch t = fetch s := by
  simp only [fetch, State.memRead, State.byteAt, hcfg, hmem, hpc]

/-- The state after a step that calls. -/
def State.called (s : State) (nnn : BitVec 12) : State :=
  ((s.advancePc.push (s.pc + 2)).setPc (zextAddr nnn)).timerTick.consumeInput

theorem step_call {nnn : BitVec 12} {s : State} {w : Word} (hh : s.halted = false) (hf : fetch s = .ok w)
    (hd : decode w = .ok (.call nnn)) (hroom : s.sp < s.cfg.stackDepth) : step s = .next (s.called nnn) :=
  step_of_effect hh hf hd (faultOf_call_of_ne (Nat.ne_of_lt hroom))

theorem step_ret {s : State} {w : Word} (hh : s.halted = false) (hf : fetch s = .ok w) (hd : decode w = .ok .ret)
    (hsome : s.sp ≠ 0) : step s = .next s.advancePc.popToPc.timerTick.consumeInput :=
  step_of_effect hh hf hd (faultOf_ret_of_ne hsome)

/-- What a return leaves right after a call. -/
theorem return_after_call {s : State} (hlegal : s.stackLegal) (hroom : s.sp < s.cfg.stackDepth) (nnn : BitVec 12) :
    let u := (s.called nnn).advancePc.popToPc.timerTick.consumeInput
    u.pc = s.pc + 2 ∧ u.sp = s.sp ∧ u.fault = s.fault ∧ ∀ r, u.reg r = s.reg r := by
  obtain ⟨hlen, -, -⟩ := hlegal
  have htop : (s.advancePc.push (s.pc + 2)).stackAt s.sp = s.pc + 2 :=
    stackAt_push_top (s := s.advancePc) (by rw [State.advancePc_sp, State.advancePc_stack]; omega) _
  exact ⟨htop, by simp [State.called], by simp [State.called], by simp [State.called]⟩

/-- Settles O29: the call pushes the post-fetch `pc` (`step_call`) and the return pops it (`return_after_call`). -/
theorem callThenReturnComesBack : Obligations.CallThenReturnComesBack := by
  intro nnn s w w' hrun hlegal hroom hf hd hf' hd'
  have hh := halted_eq_false hrun
  have hsp : (s.called nnn).sp = s.sp + 1 := by simp [State.called]
  have hrun' : (s.called nnn).halted = false := by simpa [State.called] using hh
  have hsame : fetch (s.called nnn) = fetch { s with pc := nnn.setWidth 16 } :=
    fetch_congr (s := { s with pc := nnn.setWidth 16 }) rfl rfl rfl
  have hreturn := step_ret hrun' (hsame.trans hf') hd' (by omega)
  exact ⟨s.called nnn, _, step_call hh hf hd hroom, hreturn, zextAddr_toNat nnn, hsp, return_after_call hlegal hroom nnn⟩

end Sys2Proof.Machine
end

section
/-! PROOFS. Memory transfer (spec/47_memory_transfer.md, spec/20_memory.md sections 1 and 5): what a block holds after the
store, where it is read back, and that canonical memory is determined by what it reads as. -/

namespace Sys2Proof.Machine

/-! ### Reading a stored block -/

/-- The bytes of a store in bounds, counted from its first address. -/
theorem memRead_storeBlock_add {s : State} (hm : Memory.wf s.cfg s.mem) {a k : Nat} {bs : List Byte}
    (ha : a + bs.length ≤ 4096) (hk : k < bs.length) : (s.storeBlock a bs).memRead (a + k) = some (bs.getD k 0) := by
  rw [State.memRead_storeBlock hm ha, if_pos (by omega), Nat.add_sub_cancel_left]

theorem byteAt_of_memRead {s : State} {a : Nat} {b : Byte} (h : s.memRead a = some b) : s.byteAt a = b := by
  unfold State.memRead at h
  split at h
  · exact Option.some.inj h
  · cases h

theorem byteAt_congr {s t : State} (hcfg : t.cfg = s.cfg) (hmem : t.mem = s.mem) (a : Nat) :
    t.byteAt a = s.byteAt a := by
  rw [State.byteAt, State.byteAt, hcfg, hmem]

/-- A block instruction out of range raises with `max(I, 4096)` and writes nothing (R45, R171). -/
theorem exec_block_out {i : Instr} {s : State} {n : Nat} (hi : faultOf s i = rangeFault s n) (h0 : n ≠ 0)
    (h : 4096 < s.index.toNat + n) : exec i s = .next { s with
      fault := ⟨.outOfRange, .mem, BitVec.ofNat 16 (max s.index.toNat 4096)⟩ } :=
  exec_of_fault (hi.trans (rangeFault_eq_some h0 h))

theorem exec_block_in {i : Instr} {s : State} {n : Nat} (hi : faultOf s i = rangeFault s n)
    (h : n = 0 ∨ s.index.toNat + n ≤ 4096) : exec i s = .next (effect i s) :=
  exec_of_no_fault (hi.trans (rangeFault_eq_none.2 h))

/-! ### Binary-coded decimal -/

theorem bcdDigit_toNat {n : Nat} (h : n < 256) : (BitVec.ofNat 8 n).toNat = n := by
  rw [BitVec.toNat_ofNat]; omega

/-- Settles O48: the block is the three digits (`memRead_storeBlock_add`), each below 10. -/
theorem bcdDigitsMultiplyOut : Obligations.BcdDigitsMultiplyOut := by
  intro x s
  refine ⟨decode_of_eq_encode (.ldB x) (wordXB_eq_encodeXB 0xF#4 x 0x33#8) rfl, fun hm hin => ?_, fun hout => ?_⟩
  · have hbyte := (s.reg x).isLt
    have hread {k : Nat} (hk : k < 3) : (effect (.ldB x) s).memRead (s.index.toNat + k) =
        some ((bcdDigits (s.reg x)).getD k 0) :=
      memRead_storeBlock_add (bs := bcdDigits (s.reg x)) hm (a := s.index.toNat) (by simp [bcdDigits]; omega) hk
    refine ⟨effect (.ldB x) s, _, _, _, exec_block_in (n := 3) rfl (by omega), hread (k := 0) (by decide),
      hread (k := 1) (by decide), hread (k := 2) (by decide), ?_⟩
    have hhundreds := bcdDigit_toNat (show (s.reg x).toNat / 100 < 256 by omega)
    have htens := bcdDigit_toNat (show (s.reg x).toNat / 10 % 10 < 256 by omega)
    have hones := bcdDigit_toNat (show (s.reg x).toNat % 10 < 256 by omega)
    simp only [bcdDigits, List.getD_cons_zero, List.getD_cons_succ, hhundreds, htens, hones]
    exact ⟨by omega, by omega, by omega, by omega, memKeptOutside_effect_ldB x s, onlyChanges_effect (.ldB x) s⟩
  · exact exec_block_out (n := 3) rfl (by decide) (by omega)

/-! ### Storing and loading registers -/

theorem regsUpTo_getD (s : State) {x j : Reg} (h : j ≤ x) : (s.regsUpTo x).getD j.val 0 = s.reg j := by
  have hj : j.val < x.val + 1 := Nat.lt_succ_of_le h
  simp [State.regsUpTo, State.reg, List.getD_eq_getElem?_getD, hj]

/-- Each register stored is read at its place. -/
theorem memRead_effect_stRegs {s : State} {x j : Reg} (hm : Memory.wf s.cfg s.mem)
    (hin : s.index.toNat + x.val ≤ 4095) (hj : j ≤ x) :
    (effect (.stRegs x) s).memRead (s.index.toNat + j.val) = some (s.reg j) := by
  have hlt : j.val < x.val + 1 := Nat.lt_succ_of_le hj
  have h := memRead_storeBlock_add (bs := s.regsUpTo x) hm (a := s.index.toNat) (k := j.val)
    (by rw [length_regsUpTo]; omega) (by rw [length_regsUpTo]; exact hlt)
  rwa [regsUpTo_getD s hj] at h

theorem exec_stRegs_in {s : State} {x : Reg} (h : s.index.toNat + x.val ≤ 4095) :
    exec (.stRegs x) s = .next (effect (.stRegs x) s) := exec_block_in (n := x.val + 1) rfl (by omega)

theorem exec_ldRegs_in {s : State} {x : Reg} (h : s.index.toNat + x.val ≤ 4095) :
    exec (.ldRegs x) s = .next (s.loadRegsUpTo x) := exec_block_in (n := x.val + 1) rfl (by omega)

/-- Settles O49: the registers are read back from their places (`memRead_effect_stRegs`). -/
theorem storeRegistersInclusive : Obligations.StoreRegistersInclusive := by
  intro x s
  refine ⟨decode_of_eq_encode (.stRegs x) (wordXB_eq_encodeXB 0xF#4 x 0x55#8) rfl, fun hm hin => ?_, fun hout => ?_⟩
  · exact ⟨_, exec_stRegs_in hin, fun j hj => memRead_effect_stRegs hm hin hj, memKeptOutside_effect_stRegs x s,
      onlyChanges_effect (.stRegs x) s⟩
  · exact exec_block_out (n := x.val + 1) rfl (by omega) (by omega)

/-- Settles O50: each loaded register is the byte at its place (`State.reg_loadRegsUpTo`). -/
theorem loadRegistersInclusive : Obligations.LoadRegistersInclusive := by
  intro x s
  refine ⟨decode_of_eq_encode (.ldRegs x) (wordXB_eq_encodeXB 0xF#4 x 0x65#8) rfl, fun hin => ?_, fun hout => ?_⟩
  · refine ⟨_, exec_ldRegs_in hin, fun j hj => ?_, onlyChanges_loadRegsUpTo s x⟩
    have hle : j.val ≤ x.val := hj
    rw [State.memRead_in s (by omega), State.reg_loadRegsUpTo, if_pos hj]; rfl
  · exact exec_block_out (n := x.val + 1) rfl (by omega) (by omega)

/-- Settles O51: the load reads the bytes the store has written (`memRead_effect_stRegs`), since it reads memory and `I`
alone. -/
theorem dumpThenLoadRestores : Obligations.DumpThenLoadRestores := by
  intro x s u hm hin
  refine ⟨_, exec_stRegs_in hin, fun hcfg hmem hindex => ?_⟩
  have hsame : u.index = s.index := hindex
  refine ⟨_, exec_ldRegs_in (by rwa [hsame]), fun j hj => ?_⟩
  rw [State.reg_loadRegsUpTo, if_pos hj, State.indexed, hsame, byteAt_congr hcfg hmem]
  exact byteAt_of_memRead (memRead_effect_stRegs hm hin hj)

/-- Settles O52: the two bytes fetched are the registers stored there. -/
theorem storeIsSeenByFetch : Obligations.StoreIsSeenByFetch := by
  intro x j k s hm hin hk hkx
  have hle : k.val ≤ x.val := hkx
  have hjx : j ≤ x := Fin.le_def.2 (by omega)
  have hpc : (BitVec.ofNat 16 (s.index.toNat + j.val)).toNat = s.index.toNat + j.val := by
    rw [BitVec.toNat_ofNat]; omega
  have hhi := byteAt_of_memRead (memRead_effect_stRegs hm hin hjx)
  have hlo := byteAt_of_memRead (memRead_effect_stRegs hm hin hkx)
  rw [hk, ← Nat.add_assoc] at hlo
  have hf := fetch_ok (s := (effect (.stRegs x) s).setPc (BitVec.ofNat 16 (s.index.toNat + j.val)))
    (by rw [State.setPc_pc, hpc]; omega)
  refine ⟨_, _, exec_stRegs_in hin, hf, ?_⟩
  rw [wordOfBytes_toNat, State.setPc_pc, hpc, State.byteAt_setPc, State.byteAt_setPc, hhi, hlo]

/-! ### Canonical memory -/

theorem Memory.mem_of_lookup_eq_some {m : Memory} {a : Nat} {v : Byte} (h : Memory.lookup m a = some v) :
    (a, v) ∈ m := by
  induction m with
  | nil => cases h
  | cons p m ih =>
    obtain ⟨b, u⟩ := p
    simp only [Memory.lookup] at h
    split at h
    · next hab => subst hab; obtain rfl := Option.some.inj h; exact List.mem_cons_self
    · exact List.mem_cons_of_mem _ (ih h)

theorem Memory.lookup_of_mem {m : Memory} (hs : m.Pairwise fun p q => p.1 < q.1) {a : Nat} {v : Byte}
    (h : (a, v) ∈ m) : Memory.lookup m a = some v := by
  induction m with
  | nil => cases h
  | cons p m ih =>
    obtain ⟨hfirst, hrest⟩ := List.pairwise_cons.1 hs
    obtain rfl | htail := List.mem_cons.1 h
    · simp [Memory.lookup]
    · have hne : p.1 ≠ a := Nat.ne_of_lt (hfirst _ htail)
      rw [Memory.lookup, if_neg hne, ih hrest htail]

/-- What canonical memory lists at an address is determined by what the address reads as. -/
theorem Memory.lookup_of_wf {c : Config} {m : Memory} (hm : Memory.wf c m) (a : Nat) :
    Memory.lookup m a = if Memory.read c m a = c.resetByte a then none else some (Memory.read c m a) := by
  cases h : Memory.lookup m a with
  | none => rw [Memory.read, h, Option.getD_none, if_pos rfl]
  | some v =>
    have hv : v ≠ c.resetByte a := (hm.2 _ (Memory.mem_of_lookup_eq_some h)).2
    rw [Memory.read, h, Option.getD_some, if_neg hv]

theorem Memory.mem_iff_of_read_eq {c : Config} {m m' : Memory} (hm : Memory.wf c m) (hm' : Memory.wf c m')
    (h : ∀ a, a < 4096 → Memory.read c m a = Memory.read c m' a) {p : Host.Cell} (hp : p ∈ m) : p ∈ m' := by
  have hsame := h p.1 (hm.2 p hp).1
  apply Memory.mem_of_lookup_eq_some
  rw [Memory.lookup_of_wf hm', ← hsame, ← Memory.lookup_of_wf hm]
  exact Memory.lookup_of_mem hm.1 hp

/-- Settles O53: two rising lists with the same entries are equal, and the entries are what the addresses read as. -/
theorem canonicalMemoryIsUnique : Obligations.CanonicalMemoryIsUnique := by
  intro c m m' hm hm' h
  have : Std.Antisymm fun p q : Host.Cell => p.1 < q.1 := ⟨fun _ _ hlt hgt => absurd hlt (Nat.lt_asymm hgt)⟩
  have : Std.Irrefl fun p q : Host.Cell => p.1 < q.1 := ⟨fun _ => Nat.lt_irrefl _⟩
  exact hm.1.eq_of_mem_iff hm'.1 fun _ =>
    ⟨Memory.mem_iff_of_read_eq hm hm' h, Memory.mem_iff_of_read_eq hm' hm fun a ha => (h a ha).symm⟩

end Sys2Proof.Machine
end

section
/-! PROOFS. The display (spec/44_display.md R132). Drawing a bit, a row and a sprite are each an exclusive or of the canvas
with a mask (`Xored`), and two such steps with disjoint masks are one. -/

namespace Sys2Proof.Machine

/-- `cv'` is `cv` with the pixels of the mask flipped, and it has a collision if `cv` had one or a flipped pixel was on. -/
structure Xored (mask : Fin 64 → Fin 32 → Bool) (cv cv' : Canvas) : Prop where
  pixels : ∀ px py, pixel cv'.1 px py = (pixel cv.1 px py != mask px py)
  collision : cv'.2 = true ↔ cv.2 = true ∨ ∃ px py, pixel cv.1 px py = true ∧ mask px py = true

section
variable {mask mask' : Fin 64 → Fin 32 → Bool} {cv cv' cv'' : Canvas}

theorem Xored.congr (h : Xored mask cv cv') (hmask : ∀ px py, mask px py = mask' px py) : Xored mask' cv cv' := by
  rwa [show mask = mask' from funext fun px => funext (hmask px)] at h

theorem Xored.refl (hmask : ∀ px py, mask px py = false) (cv : Canvas) : Xored mask cv cv :=
  ⟨by simp [hmask], by simp [hmask]⟩

/-- No pixel is in both masks, so the second step meets on its pixels what the first one met there. -/
theorem Xored.trans (h : Xored mask cv cv') (h' : Xored mask' cv' cv'')
    (hdisjoint : ∀ px py, mask' px py = true → mask px py = false) :
    Xored (fun px py => mask px py || mask' px py) cv cv'' := by
  constructor
  · intro px py
    rw [h'.pixels, h.pixels]
    have := hdisjoint px py
    cases hm : mask px py <;> cases hm' : mask' px py <;> simp_all
  · rw [h'.collision, h.collision, or_assoc]
    refine or_congr_right ⟨?_, ?_⟩
    · rintro (⟨px, py, hon, hm⟩ | ⟨px, py, hon, hm⟩)
      · exact ⟨px, py, hon, by simp [hm]⟩
      · rw [h.pixels, hdisjoint px py hm, Bool.bne_false] at hon
        exact ⟨px, py, hon, by simp [hm]⟩
    · rintro ⟨px, py, hon, hm⟩
      obtain hm | hm := (Bool.or_eq_true _ _).mp hm
      · exact .inl ⟨px, py, hon, hm⟩
      · exact .inr ⟨px, py, by rw [h.pixels, hdisjoint px py hm, Bool.bne_false, hon], hm⟩

end

/-! ### A bit, a row, a sprite -/

theorem xored_toggle (cv : Canvas) (x : Fin 64) (y : Fin 32) :
    Xored (fun px py => decide (px = x ∧ py = y)) cv ((toggle cv.1 x y).2, cv.2 || (toggle cv.1 x y).1) := by
  constructor
  · intro px py
    rw [pixel_toggle]
    by_cases h : px = x ∧ py = y <;> simp [h]
  · simp [toggle_fst]

theorem xored_drawBit (cv : Canvas) (x y : Nat) (bit : Bool) :
    Xored (fun px py => decide (px.val = x ∧ py.val = y) && bit) cv (drawBit cv x y bit) := by
  unfold drawBit
  split
  · next h =>
    obtain ⟨hx, hy, rfl⟩ := h
    exact (xored_toggle cv ⟨x, hx⟩ ⟨y, hy⟩).congr fun px py => by simp [Fin.ext_iff]
  · next h =>
    refine Xored.refl (fun px py => ?_) cv
    have hx := px.isLt
    have hy := py.isLt
    cases bit
    · simp
    · simp only [and_true, Bool.and_true, decide_eq_false_iff_not] at h ⊢; omega

/-- The mask of the first `n` bits of a sprite byte, drawn at column `x0` of row `y`. -/
def rowMask (x0 y n : Nat) (b : Byte) (px : Fin 64) (py : Fin 32) : Bool :=
  decide (x0 ≤ px.val ∧ px.val < x0 + n ∧ py.val = y) && b.getLsbD (7 - (px.val - x0))

theorem xored_drawBits (cv : Canvas) (x0 y n : Nat) (b : Byte) :
    Xored (rowMask x0 y n b) cv
      ((List.range n).foldl (fun cv c => drawBit cv (x0 + c) y (b.getLsbD (7 - c))) cv) := by
  induction n with
  | zero => exact Xored.refl (fun px py => by simp [rowMask]; omega) cv
  | succ n ih =>
    rw [List.range_succ, List.foldl_append]
    refine (ih.trans (xored_drawBit _ (x0 + n) y (b.getLsbD (7 - n))) fun px py hlast => ?_).congr fun px py => ?_
    · have hcol : px.val = x0 + n := by simp at hlast; omega
      simp [rowMask, hcol]
    · by_cases hcol : px.val = x0 + n
      · simp [rowMask, hcol]
      · have hiff : px.val < x0 + (n + 1) ↔ px.val < x0 + n := by omega
        simp [rowMask, hcol, hiff]

theorem xored_drawRow (cv : Canvas) (x0 y : Nat) (b : Byte) : Xored (rowMask x0 y 8 b) cv (drawRow cv x0 y b) :=
  xored_drawBits cv x0 y 8 b

/-- The mask of a sprite drawn at column `x0` from row `y` downward. -/
def spriteMask (x0 y : Nat) (bs : List Byte) (px : Fin 64) (py : Fin 32) : Bool :=
  decide (x0 ≤ px.val ∧ px.val < x0 + 8 ∧ y ≤ py.val ∧ py.val < y + bs.length) &&
    (bs.getD (py.val - y) 0).getLsbD (7 - (px.val - x0))

/-- A sprite's first row, and the others below it. -/
theorem spriteMask_cons (x0 y : Nat) (b : Byte) (bs : List Byte) (px : Fin 64) (py : Fin 32) :
    spriteMask x0 y (b :: bs) px py = (rowMask x0 y 8 b px py || spriteMask x0 (y + 1) bs px py) := by
  simp only [spriteMask, rowMask, List.length_cons]
  by_cases hrow : py.val = y
  · simp [hrow]
  · by_cases hbelow : y + 1 ≤ py.val
    · obtain ⟨k, hk⟩ := Nat.exists_eq_add_of_le hbelow
      have hy : y ≤ py.val := by omega
      have hidx : py.val - y = k + 1 := by omega
      have hidx' : py.val - (y + 1) = k := by omega
      have hlen : py.val < y + (bs.length + 1) ↔ py.val < y + 1 + bs.length := by omega
      rw [hidx, hidx', List.getD_cons_succ]
      simp [hrow, hy, hbelow, hlen]
    · have hy : ¬ y ≤ py.val := by omega
      simp [hrow, hy, hbelow]

theorem xored_drawRows (bs : List Byte) (cv : Canvas) (x0 y : Nat) :
    Xored (spriteMask x0 y bs) cv (drawRows cv x0 y bs) := by
  induction bs generalizing cv y with
  | nil => exact Xored.refl (fun px py => by simp [spriteMask]) cv
  | cons b bs ih =>
    refine ((xored_drawRow cv x0 y b).trans (ih _ (y + 1)) fun px py hbelow => ?_).congr fun px py =>
      (spriteMask_cons x0 y b bs px py).symm
    have hrow : py.val ≠ y := by simp [spriteMask] at hbelow; omega
    simp [rowMask, hrow]

theorem spriteMask_spriteRows (s : State) (x y : Reg) (n : Nat) (px : Fin 64) (py : Fin 32) :
    spriteMask ((s.reg x).toNat % 64) ((s.reg y).toNat % 32) (s.spriteRows n) px py = spriteBitAt s x y n px py := by
  simp only [spriteMask, spriteBitAt, State.spriteRows, List.length_map, List.length_range]
  by_cases hrow : (s.reg y).toNat % 32 ≤ py.val ∧ py.val < (s.reg y).toNat % 32 + n
  · have hidx : py.val - (s.reg y).toNat % 32 < n := by omega
    simp [List.getD_eq_getElem?_getD, hidx, State.indexed]
  · simp [hrow]

/-- A draw is an exclusive or with the sprite's bits (R132, the equivalent statement). -/
theorem xored_drawn (s : State) (x y : Reg) (n : Nat) :
    Xored (spriteBitAt s x y n) (s.disp, false) (s.drawn x y n) :=
  (xored_drawRows (s.spriteRows n) _ _ _).congr (spriteMask_spriteRows s x y n)

/-! ### The instruction -/

section
variable (s : State) (x y : Reg) (n : Nat)

theorem pixel_effect_drw (px : Fin 64) (py : Fin 32) :
    pixel (effect (.drw x y n) s).disp px py = (pixel s.disp px py != spriteBitAt s x y n px py) :=
  (xored_drawn s x y n).pixels px py

theorem reg_VF_effect_drw : (effect (.drw x y n) s).reg VF = flagByte (s.drawn x y n).2 :=
  State.reg_setReg_self _ _ _

theorem drawn_collision : (s.drawn x y n).2 = true ↔
    ∃ px py, pixel s.disp px py = true ∧ spriteBitAt s x y n px py = true := by
  rw [(xored_drawn s x y n).collision]; simp

theorem reg_VF_effect_drw_eq_one : (effect (.drw x y n) s).reg VF = 1 ↔
    ∃ px py, pixel s.disp px py = true ∧ spriteBitAt s x y n px py = true := by
  rw [reg_VF_effect_drw, ← drawn_collision]
  cases (s.drawn x y n).2 <;> decide

end

/-- Settles O41: a draw in range is an exclusive or with the sprite's bits (`xored_drawn`), with the collision as flag. -/
theorem drawIsXorWithCollision : Obligations.DrawIsXorWithCollision := by
  intro x y n s
  have hword : wordXYN 0xD000 x y n = encode (.drw x y n.val) := wordXYN_nibble_eq_encodeXYN 0xD#4 x y n
  refine ⟨decode_of_eq_encode _ hword (decide_eq_true n.isLt), fun hin => ?_, fun h0 hout => ?_⟩
  · refine ⟨_, exec_block_in rfl hin, pixel_effect_drw s x y n.val, (reg_VF_effect_drw_eq_one s x y n.val).2,
      fun hnone => ?_, onlyChanges_effect_drw x y n.val s⟩
    have hclear : (s.drawn x y n.val).2 = false := by
      rw [← Bool.not_eq_true, drawn_collision]
      rintro ⟨px, py, hon, hbit⟩
      rw [hnone px py hon] at hbit; cases hbit
    rw [reg_VF_effect_drw, hclear]; rfl
  · exact exec_block_out (n := n.val) rfl h0 hout

/-- A sprite's bits are the same after a draw, unless the draw has written one of its coordinates. -/
theorem spriteBitAt_effect_drw {s : State} {x y : Reg} (hx : x ≠ VF) (hy : y ≠ VF) (n : Nat) (px : Fin 64)
    (py : Fin 32) : spriteBitAt (effect (.drw x y n) s) x y n px py = spriteBitAt s x y n px py := by
  simp [spriteBitAt, effect, hx, hy]

/-- Settles O42: two exclusive ors with the same bits cancel, and a pixel is on after the first where its bit met an off
pixel. -/
theorem drawTwiceRestores : Obligations.DrawTwiceRestores := by
  intro x y n s hx hy hin
  let t := effect (.drw x y n) s
  refine ⟨t, effect (.drw x y n) t, exec_block_in rfl hin, exec_block_in (s := t) rfl hin, fun px py => ?_, ?_⟩
  · rw [pixel_effect_drw, spriteBitAt_effect_drw hx hy, pixel_effect_drw]
    cases pixel s.disp px py <;> cases spriteBitAt s x y n px py <;> rfl
  · rw [reg_VF_effect_drw_eq_one]
    simp only [t, spriteBitAt_effect_drw hx hy, pixel_effect_drw]
    refine exists_congr fun px => exists_congr fun py => and_congr_left fun hbit => ?_
    rw [hbit]; cases pixel s.disp px py <;> decide

end Sys2Proof.Machine
end

section
/-! PROOFS. Single instructions: control transfer, register skips and arithmetic (spec/40_control_transfer.md,
spec/41_conditional_skip.md, spec/42_register_alu.md). The words are decoded by `decode_of_eq_encode`, the parts left
alone are `onlyChanges_effect`; what is left is the value written. -/

namespace Sys2Proof.Machine

/-! ### Return, call and the jump with offset -/

theorem getElem?_eq_stackAt {s : State} {k : Nat} (h : k < s.stack.length) : s.stack[k]? = some (s.stackAt k) := by
  rw [State.stackAt, List.getD_eq_getElem?_getD, List.getElem?_eq_getElem h]; rfl

theorem exec_ret_empty {s : State} (h : s.sp = 0) :
    exec .ret s = .next { s with fault := ⟨.stackUnderflow, .mem, 0⟩ } := exec_of_fault (if_pos h)

theorem exec_call_full {nnn : BitVec 12} {s : State} (h : s.sp = s.cfg.stackDepth) :
    exec (.call nnn) s = .next { s with fault := ⟨.stackOverflow, .mem, 0⟩ } := exec_of_fault (if_pos h)

/-- Settles O25: the raise on an empty stack (`exec_ret_empty`), else the pop. -/
theorem returnPopsIntoPc : Obligations.ReturnPopsIntoPc := by
  refine ⟨decode_wordXB_ret, fun s => ⟨fun hempty => ?_, fun hsome hlen => ?_⟩⟩
  · exact ⟨_, exec_ret_empty hempty, rfl, rfl⟩
  · exact ⟨_, exec_of_no_fault (faultOf_ret_of_ne hsome), getElem?_eq_stackAt (by omega), rfl, onlyChanges_popToPc s⟩

/-- Settles O27: the raise on a full stack (`exec_call_full`), else the push of the post-fetch `pc` and the jump. -/
theorem callPushesAndJumps : Obligations.CallPushesAndJumps := by
  intro nnn s
  refine ⟨decode_of_eq_encode (.call nnn) (wordA_eq_encodeA 0x2#4 nnn) rfl, exec_call_full, fun hroom => ?_⟩
  have hstack : (effect (.call nnn) s).stack = s.stack.set s.sp s.pc := rfl
  refine ⟨_, exec_of_no_fault (faultOf_call_of_ne hroom), zextAddr_toNat nnn, rfl, ?_, fun hlt => ?_, fun k hk => ?_,
    onlyChanges_effect_call nnn s⟩
  · rw [hstack, List.length_set]
  · rw [hstack, List.getElem?_set_self hlt]
  · rw [hstack, List.getElem?_set_ne (Ne.symm hk)]

/-- Settles O28: the sum of a byte and 12 bits does not wrap in 16. -/
theorem jumpOffsetIsNotReduced : Obligations.JumpOffsetIsNotReduced := by
  intro nnn s
  refine ⟨decode_of_eq_encode (.jpV0 nnn) (wordA_eq_encodeA 0xB#4 nnn) rfl, _, exec_of_no_fault rfl, ?_,
    onlyChanges_setPc s _⟩
  have hv0 := (s.reg 0).isLt
  have hnnn := nnn.isLt
  show (BitVec.ofNat 16 ((s.reg 0).toNat + nnn.toNat)).toNat = _
  rw [BitVec.toNat_ofNat]; omega

/-- Settles O31: each instruction is a skip decided by comparing two registers. -/
theorem registerSkips : Obligations.RegisterSkips := by
  refine fun x y n s => ⟨decode_wordXYN_seReg x y n, decode_wordXYN_sneReg x y n, ?_, ?_⟩
  · exact ⟨_, exec_of_no_fault rfl, s.skipIf_beq_pc _ _, onlyChanges_skipIf s _⟩
  · exact ⟨_, exec_of_no_fault rfl, s.skipIf_bne_pc _ _, onlyChanges_skipIf s _⟩

/-! ### Arithmetic -/

/-- Settles O33: each instruction writes `V[X]` alone, and the three operators are bitwise. -/
theorem copyAndLogic : Obligations.CopyAndLogic := by
  intro x y s
  refine ⟨decode_of_eq_encode (.ldReg x y) (wordXYN_eq_encodeXYN 0x8#4 0x0#4 x y) rfl,
    decode_of_eq_encode (.orReg x y) (wordXYN_eq_encodeXYN 0x8#4 0x1#4 x y) rfl,
    decode_of_eq_encode (.andReg x y) (wordXYN_eq_encodeXYN 0x8#4 0x2#4 x y) rfl,
    decode_of_eq_encode (.xorReg x y) (wordXYN_eq_encodeXYN 0x8#4 0x3#4 x y) rfl, ?_, ?_, ?_, ?_⟩
  · exact ⟨_, exec_of_no_fault rfl, s.reg_setReg_self x _, onlyChanges_setReg s x _⟩
  · refine ⟨_, exec_of_no_fault rfl, onlyChanges_setReg s x _, fun b _ => ?_⟩
    simp only [effect, State.reg_setReg_self, BitVec.getLsbD_or]
  · refine ⟨_, exec_of_no_fault rfl, onlyChanges_setReg s x _, fun b _ => ?_⟩
    simp only [effect, State.reg_setReg_self, BitVec.getLsbD_and]
  · refine ⟨_, exec_of_no_fault rfl, onlyChanges_setReg s x _, fun b _ => ?_⟩
    simp only [effect, State.reg_setReg_self, BitVec.getLsbD_xor, Bool.bne_eq_xor]

theorem reg_result_setResultThenFlag (s : State) {x : Reg} (h : x ≠ VF) (a f : Byte) :
    (s.setResultThenFlag x a f).reg x = a := by
  rw [State.reg_setResultThenFlag, if_neg h, if_pos rfl]

theorem flagByte_toNat (b : Bool) : (flagByte b).toNat = if b = true then 1 else 0 := by cases b <;> rfl

theorem carryFlag_toNat (a b : Byte) : (carryFlag a b).toNat = if 255 < a.toNat + b.toNat then 1 else 0 := by
  simp only [carryFlag, flagByte_toNat, decide_eq_true_eq]

theorem notBorrowFlag_toNat (a b : Byte) : (notBorrowFlag a b).toNat = if a.toNat < b.toNat then 0 else 1 := by
  simp only [notBorrowFlag, flagByte_toNat, decide_eq_true_eq]
  split <;> split <;> omega

theorem sub_toInt_mod (a b : Byte) : ((a - b).toNat : Int) = ((a.toNat : Int) - b.toNat) % 256 := by
  have ha := a.isLt
  have hb := b.isLt
  rw [BitVec.toNat_sub]; omega

/-- Settles O34: the result and the carry of the two registers' values on entry. -/
theorem addSetsCarry : Obligations.AddSetsCarry := by
  intro x y s
  refine ⟨decode_of_eq_encode (.addReg x y) (wordXYN_eq_encodeXYN 0x8#4 0x4#4 x y) rfl, _, exec_of_no_fault rfl,
    fun hx => ?_, ?_, onlyChanges_setResultThenFlag s x _ _⟩
  · simp only [effect, reg_result_setResultThenFlag s hx, BitVec.toNat_add]
  · simp only [effect, reg_VF_setResultThenFlag, carryFlag_toNat]

/-- Settles O35: the difference modulo 256 (`sub_toInt_mod`) and the not-borrow (`notBorrowFlag_toNat`). -/
theorem subtractionsSetNotBorrow : Obligations.SubtractionsSetNotBorrow := by
  intro x y s
  refine ⟨decode_of_eq_encode (.sub x y) (wordXYN_eq_encodeXYN 0x8#4 0x5#4 x y) rfl,
    decode_of_eq_encode (.subn x y) (wordXYN_eq_encodeXYN 0x8#4 0x7#4 x y) rfl, ?_, ?_⟩
  · refine ⟨_, exec_of_no_fault rfl, fun hx => ?_, ?_, onlyChanges_setResultThenFlag s x _ _⟩
    · simp only [effect, reg_result_setResultThenFlag s hx, sub_toInt_mod]
    · simp only [effect, reg_VF_setResultThenFlag, notBorrowFlag_toNat]
  · refine ⟨_, exec_of_no_fault rfl, fun hx => ?_, ?_, onlyChanges_setResultThenFlag s x _ _⟩
    · simp only [effect, reg_result_setResultThenFlag s hx, sub_toInt_mod]
    · simp only [effect, reg_VF_setResultThenFlag, notBorrowFlag_toNat]

theorem shiftSource_toNat (s : State) (x y : Reg) :
    (s.shiftSource x y).toNat = if s.cfg.shiftUsesVy = true then (s.reg y).toNat else (s.reg x).toNat :=
  apply_ite BitVec.toNat _ _ _

theorem ushiftRight_one_toNat (b : Byte) : (b >>> 1).toNat = b.toNat / 2 := by
  rw [BitVec.toNat_ushiftRight, Nat.shiftRight_one]

theorem shiftLeft_one_toNat (b : Byte) : (b <<< 1).toNat = b.toNat * 2 % 256 := by
  rw [BitVec.toNat_shiftLeft, Nat.shiftLeft_eq, Nat.pow_one]

theorem shiftedOutRight_toNat (b : Byte) : (shiftedOutRight b).toNat = b.toNat % 2 := by
  simp only [shiftedOutRight, flagByte_toNat, BitVec.getLsbD, Nat.testBit_zero, decide_eq_true_eq]
  split <;> omega

theorem shiftedOutLeft_toNat (b : Byte) : (shiftedOutLeft b).toNat = b.toNat / 128 := by
  have hb := b.isLt
  simp only [shiftedOutLeft, flagByte_toNat, BitVec.getLsbD, Nat.testBit_eq_decide_div_mod_eq, decide_eq_true_eq]
  split <;> omega

/-- Settles O36: both shifts and the bit each loses, for the source that the toggle selects (`shiftSource_toNat`). -/
theorem shiftsByOne : Obligations.ShiftsByOne := by
  intro x y s
  refine ⟨decode_wordXYN_shr x y, decode_wordXYN_shl x y, ?_⟩
  rintro src rfl
  rw [← shiftSource_toNat]
  constructor
  · refine ⟨_, exec_of_no_fault rfl, fun hx => ?_, ?_, onlyChanges_setResultThenFlag s x _ _⟩
    · simp only [effect, reg_result_setResultThenFlag s hx, ushiftRight_one_toNat]
    · simp only [effect, reg_VF_setResultThenFlag, shiftedOutRight_toNat]
  · refine ⟨_, exec_of_no_fault rfl, fun hx => ?_, ?_, onlyChanges_setResultThenFlag s x _ _⟩
    · simp only [effect, reg_result_setResultThenFlag s hx, shiftLeft_one_toNat]
    · simp only [effect, reg_VF_setResultThenFlag, shiftedOutLeft_toNat]

end Sys2Proof.Machine
end

section
/-! PROOFS. Single instructions: index and random, display, keypad and timers (spec/43_index_and_random.md,
spec/44_display.md R131, spec/45_keypad.md, spec/46_timers.md), and the host's ports (spec/10_state.md section 5). -/

namespace Sys2Proof.Machine

/-! ### Index and random -/

theorem and_and_not_self (r nn : Byte) : r &&& nn &&& ~~~nn = 0 := by
  rw [BitVec.and_assoc, BitVec.and_not_self]
  exact BitVec.and_zero

/-- Settles O38: the byte written is the step's random byte under the mask, whatever that byte is. -/
theorem randomIsMasked : Obligations.RandomIsMasked := by
  intro x nn r keys q s
  refine ⟨decode_of_eq_encode (.rnd x nn) (wordXB_eq_encodeXB 0xC#4 x nn) rfl, ?_, fun hinputs => ?_⟩
  · refine ⟨_, exec_of_no_fault rfl, ?_, onlyChanges_setReg s x _⟩
    simp only [effect, State.reg_setReg_self, and_and_not_self]
  · have hinput : s.input = ⟨keys, r⟩ := input_of_head (by rw [hinputs]; rfl)
    refine ⟨_, exec_of_no_fault rfl, ?_⟩
    simp only [effect, State.reg_setReg_self, hinput]

theorem indexExceeds_iff (i : Word) (b : Byte) : indexExceeds i b = true ↔ 0x0FFF < i.toNat + b.toNat := by
  simp [indexExceeds]

theorem index_effect_addI (x : Reg) (s : State) :
    (effect (.addI x) s).index = BitVec.ofNat 16 (s.index.toNat + (s.reg x).toNat) := by
  by_cases h : indexExceeds s.index (s.reg x) = true
  · rw [effect_addI_exceeds h, State.setReg_index, State.setIndex_index]
  · rw [effect_addI_within h, State.setIndex_index]

/-- Settles O39: the sum modulo 65536 (`index_effect_addI`), and `VF` on both sides of 0x0FFF. -/
theorem addToIndexSetsOnly : Obligations.AddToIndexSetsOnly := by
  intro x s
  refine ⟨decode_of_eq_encode (.addI x) (wordXB_eq_encodeXB 0xF#4 x 0x1E#8) rfl, _, exec_of_no_fault rfl, ?_,
    fun hexceeds => ?_, fun hwithin => ?_, onlyChanges_effect_addI x s⟩
  · rw [index_effect_addI, BitVec.toNat_ofNat]
  · rw [effect_addI_exceeds ((indexExceeds_iff _ _).2 hexceeds), State.reg_setReg_self]
  · rw [effect_addI_within (mt (indexExceeds_iff _ _).1 (Nat.not_lt.2 hwithin)), State.reg_setIndex]

/-! ### Display -/

/-- Settles O40: every pixel of the cleared display is off (`pixel_cleared`). -/
theorem clearTurnsAllPixelsOff : Obligations.ClearTurnsAllPixelsOff :=
  ⟨decode_wordXB_cls, fun s => ⟨_, exec_of_no_fault rfl, pixel_cleared, onlyChanges_setDisp s _⟩⟩

/-! ### Keypad -/

section
variable {x : Reg} {s : State}

theorem faultOf_skp_of_le (h : (s.reg x).toNat ≤ 15) : faultOf s (.skp x) = none := if_neg (Nat.not_lt.2 h)

theorem faultOf_sknp_of_le (h : (s.reg x).toNat ≤ 15) : faultOf s (.sknp x) = none := if_neg (Nat.not_lt.2 h)

theorem exec_skp_out (h : 15 < (s.reg x).toNat) : exec (.skp x) s = .next { s with
    fault := ⟨.outOfRange, .key, BitVec.ofNat 16 (s.reg x).toNat⟩ } := exec_of_fault (if_pos h)

theorem exec_sknp_out (h : 15 < (s.reg x).toNat) : exec (.sknp x) s = .next { s with
    fault := ⟨.outOfRange, .key, BitVec.ofNat 16 (s.reg x).toNat⟩ } := exec_of_fault (if_pos h)

end

/-- Settles O43: a skip decided by the key's bit, or the raise for a number above 15. -/
theorem keySkips : Obligations.KeySkips := by
  intro x s
  refine ⟨decode_of_eq_encode (.skp x) (wordXB_eq_encodeXB 0xE#4 x 0x9E#8) rfl,
    decode_of_eq_encode (.sknp x) (wordXB_eq_encodeXB 0xE#4 x 0xA1#8) rfl, fun hkey => ⟨?_, ?_⟩,
    fun hout => ⟨exec_skp_out hout, exec_sknp_out hout⟩⟩
  · refine ⟨_, exec_of_no_fault (faultOf_skp_of_le hkey), onlyChanges_skipIf s _, ?_⟩
    simp only [effect, State.skipIf_pc, State.keyDown, beq_true]
  · refine ⟨_, exec_of_no_fault (faultOf_sknp_of_le hkey), onlyChanges_skipIf s _, ?_⟩
    simp only [effect, State.skipIf_pc, State.keyDown]
    cases s.input.keys.getLsbD (s.reg x).toNat <;> rfl

/-- With an empty table the lowest pressed key is selected (log 4). -/
theorem selectKey_of_empty_table {c : Config} (h : c.keySelect = []) (keys : BitVec 16) :
    selectKey c keys = lowestKey keys := by
  simp only [selectKey, h, List.find?_nil]

/-- Settles O44: the wait rewinds `pc`; with a key pressed the selected key is a pressed one (`selectKey_pressed`), with
the default selection the lowest (`lowestKey_eq_some`). -/
theorem keyWaitInstruction : Obligations.KeyWaitInstruction := by
  intro x s
  refine ⟨decode_of_eq_encode (.ldVxK x) (wordXB_eq_encodeXB 0xF#4 x 0x0A#8) rfl, fun hnone => ?_, fun hsome => ?_⟩
  · refine ⟨_, exec_of_no_fault rfl, ?_⟩
    rw [effect_ldVxK_wait hnone]
    exact ⟨rfl, onlyChanges_setPc s _⟩
  · cases hk : selectKey s.cfg s.input.keys with
    | none => exact absurd (selectKey_eq_none.1 hk) hsome
    | some key =>
      have hkey := key.isLt
      refine ⟨_, key, exec_of_no_fault rfl, ?_⟩
      rw [effect_ldVxK_key hk, State.reg_setReg_self, BitVec.toNat_ofNat]
      refine ⟨by omega, selectKey_pressed hk, onlyChanges_setReg s x _, fun hdefault j hj => ?_⟩
      rw [selectKey_of_empty_table hdefault] at hk
      exact (lowestKey_eq_some hk).2 ⟨j, hj.trans hkey⟩ hj

/-- The table that names for every key vector the key a function selects. -/
def keySelectTable (f : BitVec 16 → Fin 16) : List (BitVec 16 × Fin 16) :=
  (List.finRange (2 ^ 16)).map fun k => (BitVec.ofFin k, f (BitVec.ofFin k))

theorem mem_keySelectTable {f : BitVec 16 → Fin 16} {e : BitVec 16 × Fin 16} :
    e ∈ keySelectTable f ↔ e.2 = f e.1 := by
  obtain ⟨keys, key⟩ := e
  constructor
  · intro h
    obtain ⟨k, -, he⟩ := List.mem_map.1 h
    obtain ⟨rfl, rfl⟩ := Prod.mk.inj he
    rfl
  · intro h
    obtain rfl : key = f keys := h
    exact List.mem_map.2 ⟨keys.toFin, List.mem_finRange _, rfl⟩

/-- With a table of a function that selects pressed keys, the function's key is selected. -/
theorem selectKey_of_table {f : BitVec 16 → Fin 16} {table : List (BitVec 16 × Fin 16)}
    (htable : ∀ e, e ∈ table ↔ e.2 = f e.1) (c : Config) {keys : BitVec 16}
    (hpressed : keys.getLsbD (f keys).val = true) :
    selectKey { c with keySelect := table } keys = some (f keys) := by
  unfold selectKey
  split
  · next e hfind =>
    have hvec := List.find?_some hfind
    simp only [Bool.and_eq_true, beq_iff_eq] at hvec
    have hmem := (htable e).1 (List.mem_of_find?_eq_some hfind)
    rw [hmem, hvec.1]
  · next hfind =>
    have hentry : (keys, f keys) ∈ table := (htable _).2 rfl
    exact absurd (List.find?_eq_none.1 hfind _ hentry) (by simp [hpressed])

/-- Settles O46: the function's own table (`keySelectTable`) selects as the function does. -/
theorem everyKeySelectIsATable : Obligations.EveryKeySelectIsATable := fun f hf =>
  ⟨keySelectTable f, fun c keys hkeys => selectKey_of_table (fun _ => mem_keySelectTable) c (hf keys hkeys)⟩

/-! ### Timers and ports -/

/-- Settles O47: each instruction is one write, of `V[X]`, `DT` or `ST`. -/
theorem timerInstructions : Obligations.TimerInstructions := by
  intro x s
  refine ⟨decode_of_eq_encode (.ldVxDt x) (wordXB_eq_encodeXB 0xF#4 x 0x07#8) rfl,
    decode_of_eq_encode (.ldDtVx x) (wordXB_eq_encodeXB 0xF#4 x 0x15#8) rfl,
    decode_of_eq_encode (.ldStVx x) (wordXB_eq_encodeXB 0xF#4 x 0x18#8) rfl, ?_, ?_, ?_⟩
  · exact ⟨_, exec_of_no_fault rfl, s.reg_setReg_self x _, onlyChanges_setReg s x _⟩
  · exact ⟨_, exec_of_no_fault rfl, s.setDt_dt _, onlyChanges_setDt s _⟩
  · exact ⟨_, exec_of_no_fault rfl, s.setSt_st _, onlyChanges_setSt s _⟩

theorem readPixel_in (s : State) {x y : Nat} (hx : x < 64) (hy : y < 32) :
    s.readPixel x y = some (s.disp[y])[x] := dif_pos ⟨hx, hy⟩

theorem readPixel_eq_none (s : State) (x y : Nat) : s.readPixel x y = none ↔ 64 ≤ x ∨ 32 ≤ y := by
  by_cases h : x < 64 ∧ y < 32
  · rw [readPixel_in s h.1 h.2]; simp; omega
  · rw [State.readPixel, dif_neg h]; simp; omega

theorem soundOut_eq_true (s : State) : s.soundOut = true ↔ s.st.toNat ≠ 0 := by
  rw [State.soundOut, bne_iff_ne, ne_eq, ne_eq, ← BitVec.toNat_inj]; rfl

/-- Settles O58: both ports read the pixel of `DISP`, and the latch's numbers are those of the definition. -/
theorem hostPortsReadState : Obligations.HostPortsReadState :=
  ⟨fun _ _ _ => rfl, fun s _ _ hx hy => readPixel_in s hx hy, readPixel_eq_none, soundOut_eq_true, rfl, rfl, rfl, rfl, rfl,
    rfl, rfl, rfl, rfl⟩

end Sys2Proof.Machine
end
